-- ==== Sys2Proof/Word.lean ====
section
/-! DEFINITION. The widths of the block's values (rules R6 and R60). The arithmetic on them
is in Machine/Arith.lean. -/

namespace Sys2Proof

/-- A register, an operand or an arithmetic result: `XLEN` = 32 bits (R6). -/
abbrev Word := BitVec 32

/-- One element of the seed: `CU_W` = 16 bits (R6, R90). -/
abbrev CodeUnit := BitVec 16

/-- One output byte: `BYTE_W` = 8 bits (R6). -/
abbrev Byte := BitVec 8

/-- A command word `cw[35:0]` (R60). -/
abbrev CommandWord := BitVec 36

end Sys2Proof
end

