-- ==== Sys2Proof/Syntax.lean ====
section
/-! DEFINITION. The eleven commands (R64), one constructor per row of the opcode table, each with
its operand at the operand's own width (R62). -/

namespace Sys2Proof

/-- A command. The spec's word for an instruction is "command" (R2). Every term is well formed:
an operand has exactly the bits its format gives it (R61, R62). -/
inductive Instr where
  /-- `HINIT len`: start hashing a seed of `len` code units (R83). -/
  | hinit (len : Word)
  /-- `HABS c`: absorb one code unit (R84). -/
  | habs (c : CodeUnit)
  /-- `HDRAW`: one draw of the hash generator (R85). -/
  | hdraw
  /-- `PSEED`: seed the generator with four hash draws (R120). -/
  | pseed
  /-- `PSTEP`: one draw of the generator (R108). -/
  | pstep
  /-- `GEN n`: generate `n` bytes; the operand is kept as its 32 bits and read as signed (R62,
  R121). -/
  | gen (arg : Word)
  /-- `CLR`: forget everything (R122). -/
  | clr
  /-- `PLDA w`: load `a` (R104). -/
  | plda (w : Word)
  /-- `PLDB w`: load `b` (R105). -/
  | pldb (w : Word)
  /-- `PLDC w`: load `c` (R106). -/
  | pldc (w : Word)
  /-- `PLDD w`: load `d` (R107). -/
  | pldd (w : Word)
  deriving DecidableEq, Repr

/-- The three formats (R61): word operand, code-unit operand, no operand. -/
inductive Format where
  | W
  | U
  | N
  deriving DecidableEq, Repr

/-- The format of a command (R61, R64). -/
def Instr.format : Instr → Format
  | .hinit _ => .W
  | .habs _ => .U
  | .hdraw => .N
  | .pseed => .N
  | .pstep => .N
  | .gen _ => .W
  | .clr => .N
  | .plda _ => .W
  | .pldb _ => .W
  | .pldc _ => .W
  | .pldd _ => .W

end Sys2Proof
end

