-- ==== Sys2Proof/WellFormed.lean ====
section
/-! DEFINITION. What is checked before a command can run. A term of `Instr` needs no check (its
operands have their formats' widths), so the checks are on the two things a command is made from:
a 36-bit word (R64, R65), and a numeral written for an operand (R62, R70). The word check is the
match and mask table of R64, written apart from the decoder so that the two can be compared. -/

namespace Sys2Proof

/-- One row of the opcode map: a word spells the row's command exactly when its bits under `mask`
are `fixed` (R64, the columns match and mask). -/
structure OpcodeRow where
  fixed : CommandWord
  mask : CommandWord
  deriving DecidableEq, Repr

/-- A word matches a row (R64). -/
def OpcodeRow.covers (r : OpcodeRow) (w : CommandWord) : Bool := w &&& r.mask == r.fixed

/-- The opcode map of R64, in the table's order. -/
def opcodeMap : List OpcodeRow :=
  [ ⟨0x100000000#36, 0xF00000000#36⟩,   -- HINIT
    ⟨0x200000000#36, 0xFFFFF0000#36⟩,   -- HABS
    ⟨0x300000000#36, 0xFFFFFFFFF#36⟩,   -- HDRAW
    ⟨0x400000000#36, 0xFFFFFFFFF#36⟩,   -- PSEED
    ⟨0x500000000#36, 0xFFFFFFFFF#36⟩,   -- PSTEP
    ⟨0x600000000#36, 0xF00000000#36⟩,   -- GEN
    ⟨0x700000000#36, 0xFFFFFFFFF#36⟩,   -- CLR
    ⟨0x800000000#36, 0xF00000000#36⟩,   -- PLDA
    ⟨0x900000000#36, 0xF00000000#36⟩,   -- PLDB
    ⟨0xA00000000#36, 0xF00000000#36⟩,   -- PLDC
    ⟨0xB00000000#36, 0xF00000000#36⟩ ]  -- PLDD

/-- A word spells a command: it matches a row of R64. Every other word is illegal (R65). -/
def CommandWord.wellFormed (w : CommandWord) : Bool := opcodeMap.any fun r => r.covers w

/-- A numeral written for a 32-bit unsigned operand (`HINIT`, `PLDA` to `PLDD`) is in range
(R62). -/
def fitsWord (n : Int) : Bool := decide (0 ≤ n) && decide (n < 2 ^ 32)

/-- A numeral written for the operand of `HABS` is in range (R62). -/
def fitsCodeUnit (n : Int) : Bool := decide (0 ≤ n) && decide (n < 2 ^ 16)

/-- A numeral written for the operand of `GEN` is in range: two's complement, negative allowed
(R62). -/
def fitsCount (n : Int) : Bool := decide (-(2 ^ 31) ≤ n) && decide (n < 2 ^ 31)

end Sys2Proof
end

