-- ==== Sys2Proof/Decode.lean ====
section
/-! DEFINITION. Decoding a command word, total and looking at the word alone (R60 to R66), and the
encoder, written from the same formats. -/

namespace Sys2Proof

/-- Why a word spells no command (R65). -/
inductive Illegal where
  /-- The opcode is `0x0` or `0xC` to `0xF`. -/
  | reservedOpcode
  /-- `HABS` with `arg[31:16] ≠ 0`. -/
  | codeUnitTooWide
  /-- `HDRAW`, `PSEED`, `PSTEP` or `CLR` with `arg ≠ 0`. -/
  | operandNotZero
  deriving DecidableEq, Repr

/-- `cw[35:32]`, the opcode, on the port `cmd_op` (R60). -/
def opOf (w : CommandWord) : BitVec 4 := w.extractLsb' 32 4

/-- `cw[31:0]`, the operand, on the port `cmd_arg` (R60). -/
def argOf (w : CommandWord) : Word := w.extractLsb' 0 32

/-- The word with opcode `op` and operand `arg` (R60). -/
def wordOf (op : BitVec 4) (arg : Word) : CommandWord := op ++ arg

/-- Format U: the operand is `arg[15:0]` and `arg[31:16]` must be zero (R61). -/
def decodeCodeUnit (arg : Word) : Except Illegal Instr :=
  if arg.extractLsb' 16 16 = 0#16 then .ok (.habs (arg.extractLsb' 0 16))
  else .error .codeUnitTooWide

/-- Format N: the whole operand must be zero (R61). -/
def decodeNoOperand (i : Instr) (arg : Word) : Except Illegal Instr :=
  if arg = 0#32 then .ok i else .error .operandNotZero

/-- The decoder (R64 to R66): the opcode selects the format, then the format's must-be-zero bits
are looked at. -/
def decode (w : CommandWord) : Except Illegal Instr :=
  match (opOf w).toNat with
  | 0x1 => .ok (.hinit (argOf w))
  | 0x2 => decodeCodeUnit (argOf w)
  | 0x3 => decodeNoOperand .hdraw (argOf w)
  | 0x4 => decodeNoOperand .pseed (argOf w)
  | 0x5 => decodeNoOperand .pstep (argOf w)
  | 0x6 => .ok (.gen (argOf w))
  | 0x7 => decodeNoOperand .clr (argOf w)
  | 0x8 => .ok (.plda (argOf w))
  | 0x9 => .ok (.pldb (argOf w))
  | 0xA => .ok (.pldc (argOf w))
  | 0xB => .ok (.pldd (argOf w))
  | _ => .error .reservedOpcode

/-- A code unit in the operand of format U, the upper half zero (R61). -/
def argOfCodeUnit (c : CodeUnit) : Word := c.setWidth 32

/-- The encoder (R61, R64). -/
def encode : Instr → CommandWord
  | .hinit len => wordOf 0x1#4 len
  | .habs c => wordOf 0x2#4 (argOfCodeUnit c)
  | .hdraw => wordOf 0x3#4 0#32
  | .pseed => wordOf 0x4#4 0#32
  | .pstep => wordOf 0x5#4 0#32
  | .gen arg => wordOf 0x6#4 arg
  | .clr => wordOf 0x7#4 0#32
  | .plda w => wordOf 0x8#4 w
  | .pldb w => wordOf 0x9#4 w
  | .pldc w => wordOf 0xA#4 w
  | .pldd w => wordOf 0xB#4 w

/-- The command a number spells when its bits are `w` as the opcode table numbers them, the table
giving `nbits` of them and the rest being zero. A command is one word (R60), so the number is the
word; one that needs more than 36 bits is no command word (log entry 10). -/
def decodeTableWord (nbits w : Nat) : Option Instr :=
  let bits := w % 2 ^ nbits
  if bits < 2 ^ 36 then
    match decode (BitVec.ofNat 36 bits) with
    | .ok i => some i
    | .error _ => none
  else none

end Sys2Proof
end

