-- ==== Sys2Proof/Machine/Arith.lean ====
section
/-! DEFINITION. The primitives of R8 to R13 on unsigned 32-bit values. -/

namespace Sys2Proof.Machine

/-- `(x + y) mod 2^32` (R8). -/
def add32 (x y : Word) : Word := x + y

/-- `(x · y) mod 2^32`: the low 32 bits of the product (R9). -/
def mul32 (x y : Word) : Word := x * y

/-- Bitwise exclusive or (R10). -/
def xor32 (x y : Word) : Word := x ^^^ y

/-- Logical right shift, zeros entering at the top (R11). -/
def shr32 (x : Word) (n : Nat) : Word := x >>> n

/-- Left shift, the bits that leave the top discarded (R12). -/
def shl32 (x : Word) (n : Nat) : Word := x <<< n

/-- Rotate left, `shl32(x, n) OR shr32(x, 32 − n)` (R13). -/
def rotl32 (x : Word) (n : Nat) : Word := shl32 x n ||| shr32 x (32 - n)

end Sys2Proof.Machine
end

