-- ==== Sys2Proof/Machine/Operands.lean ====
section
/-! DEFINITION. How each operand is read (R10, R14, R62). The operands of `HINIT` and `PLDA` to
`PLDD` are used as the 32-bit words they are. -/

namespace Sys2Proof.Machine

/-- `zext_32(c)`: bits 31 to 16 zero (R10). -/
def zext32 (c : CodeUnit) : Word := c.setWidth 32

/-- `signed32(v)`: the two's-complement reading (R14). -/
def signed32 (v : Word) : Int := if v.getLsbD 31 then (v.toNat : Int) - 2 ^ 32 else (v.toNat : Int)

end Sys2Proof.Machine
end

