-- ==== Sys2Proof/Machine/Params.lean ====
section
/-! DEFINITION. The parameters of R6 that have values, each named once and written as the source's
decimal numeral. UNVERIFIED: nobody audited the literals against the original repository (U9, log
entry 12). -/

namespace Sys2Proof.Machine

/-- `K_INIT` = `0x6A09E667` (R6). -/
def kInit : Word := 1779033703#32

/-- `K_ABS` = `0xCC9E2D51` (R6). -/
def kAbs : Word := 3432918353#32

/-- `K_F1` = `0x85EBCA6B` (R6). -/
def kF1 : Word := 2246822507#32

/-- `K_F2` = `0xC2B2AE35` (R6). -/
def kF2 : Word := 3266489909#32

/-- Rotate amount in absorb (R6). -/
def absorbRotate : Nat := 13

/-- First shift in finalise (R6). -/
def finalShift1 : Nat := 16

/-- Second shift in finalise (R6). -/
def finalShift2 : Nat := 13

/-- Third shift in finalise (R6). -/
def finalShift3 : Nat := 16

/-- Right shift in the generator step (R6). -/
def stepShiftRight : Nat := 9

/-- Left shift in the generator step (R6). -/
def stepShiftLeft : Nat := 3

/-- Rotate amount in the generator step (R6). -/
def stepRotate : Nat := 21

/-- `pvalid` when the generator is fully seeded, `0b1111` (R25). -/
def allValid : BitVec 4 := 0b1111#4

end Sys2Proof.Machine
end

