-- ==== Sys2Proof/Machine/HashFn.lean ====
section
/-! DEFINITION. The three pure functions of `string_hash_expand` (R80 to R82). -/

namespace Sys2Proof.Machine

/-- `hash_init(len)` (R80). -/
def hashInit (len : Word) : Word := xor32 kInit len

/-- `hash_absorb(h, c)` (R81). -/
def hashAbsorb (h : Word) (c : CodeUnit) : Word :=
  rotl32 (mul32 (xor32 h (zext32 c)) kAbs) absorbRotate

/-- `hash_final(h)`: three lines, each using the value of the line before (R82). -/
def hashFinal (h : Word) : Word :=
  let h1 := mul32 (xor32 h (shr32 h finalShift1)) kF1
  let h2 := mul32 (xor32 h1 (shr32 h1 finalShift2)) kF2
  xor32 h2 (shr32 h2 finalShift3)

end Sys2Proof.Machine
end

