-- ==== Sys2Proof/Config.lean ====
section
/-! DEFINITION. What an implementation fixes and the spec leaves open, and the free values.
Each constant here has no body, so no proof can see its value. The spec's own constants, which
have values, are in Machine/Params.lean. -/

namespace Sys2Proof

/-- FREE VALUE (log entry 2). The content of a data register after a command or a reset that
leaves it unspecified: `h` after `PSEED`, `CLR` and reset (R23, R120, R122, U1), `a`, `b`, `c`,
`d` after a successful `GEN`, `CLR` and reset (R25, R121, R122, U2). It is applied to the counter
`State.fresh`. All instances of a system share it (DESIGN CHOICE, log entry 17). -/
opaque Config.freeWord : Nat → Word

/-- OPEN parameter (R6, D20; log entry 11): how many instances a system holds beyond the first. -/
opaque Config.extraInstances : Nat

/-- `N_INST ≥ 1`, the number of instances (R6, R151). -/
def Config.nInst : Nat := Config.extraInstances + 1

/-- FREE VALUE (log entry 9). How many clock cycles pass before the port layer offers its next
output: the spec gives no latency (R177, U12). It is applied to a count of cycles. -/
opaque Config.latency : Nat → Nat

end Sys2Proof
end

