-- ==== Sys2Proof/Machine/State.lean ====
section
/-! DEFINITION. The machine's state, plain data: the eight architectural fields of R20, the streams
at the block's three ports (R31), and the counter of free values. There is no memory, no program
counter, no mode and no exception register (R27 to R32). -/

namespace Sys2Proof.Machine

/-- The response codes (R67). -/
inductive RspCode where
  /-- The command was executed as its rule says. -/
  | ok
  /-- The word spells no command (R141). -/
  | illegal
  /-- `GEN` with a negative count (R142). -/
  | invalidArgument
  /-- The state does not admit the command (R143). -/
  | sequence
  deriving DecidableEq, Repr

/-- One response `(code[1:0], data[31:0])` (R67). -/
structure Response where
  code : RspCode
  data : Word
  deriving DecidableEq, Repr

/-- One byte on the byte stream: `out_index[30:0]`, `out_byte[7:0]`, `out_last` (R42). -/
structure StreamByte where
  index : BitVec 31
  value : Byte
  last : Bool
  deriving DecidableEq, Repr

/-- What the block puts on its two output ports. One list of these keeps the order of the bytes
and the responses: all bytes of a `GEN` precede its response (R42, R67). -/
inductive PortEvent where
  | byte (b : StreamByte)
  | response (r : Response)
  deriving DecidableEq, Repr

/-- What the host does to the block: it presents a command word or asserts reset (R49). -/
inductive HostEvent where
  | command (w : CommandWord)
  | reset
  deriving DecidableEq, Repr

/-- The four generator registers together, the source's PrngState (R24). -/
structure Prng where
  a : Word
  b : Word
  c : Word
  d : Word
  deriving DecidableEq, Repr

/-- The state of one block instance: the eight fields of R20 after the model's three streams. The
fields that every command changes come first, so that Lean tells two states apart before it looks at
a computed register. -/
@[ext]
structure State where
  /-- What the block has put on its output ports, oldest first (R16, R42, R67; log entry 5). No
  rule reads it. -/
  events : List PortEvent
  /-- What the host will present, oldest first (R16, R48; log entry 4). -/
  input : List HostEvent
  /-- How many free values have been taken: the model's own field (log entry 3), not told apart
  between instances (log entry 17). -/
  fresh : Nat
  /-- `h` holds a value (R23). -/
  hvalid : Bool
  /-- Bit 0 for `a`, 1 for `b`, 2 for `c`, 3 for `d` (R25). -/
  pvalid : BitVec 4
  /-- Code units still to be absorbed (R22). -/
  hrem : Word
  /-- The hash accumulator (R21). -/
  h : Word
  /-- Generator word a (R24). -/
  a : Word
  /-- Generator word b (R24). -/
  b : Word
  /-- Generator word c (R24). -/
  c : Word
  /-- Generator word d, the step counter (R24, R110). -/
  d : Word
  deriving DecidableEq, Repr

/-- The faults of the machine: none. Every error of the block is a response after which it goes on
(R145), so no constructor is needed (log entry 6). -/
inductive Fault
  deriving DecidableEq, Repr

/-- The refusals. -/
inductive Refusal where
  /-- Raised only by an arm of `exec` that has no meaning yet; safe. No arm of this model raises
  it. -/
  | notModelled (mnemonic : String)
  deriving DecidableEq, Repr

/-- The machine right after reset (R34, R170): `hvalid`, `hrem` and `pvalid` zero. DESIGN CHOICE:
the data registers, which the spec leaves unspecified there, are zero (log entry 1). -/
def State.reset : State where
  h := 0#32
  hrem := 0#32
  hvalid := false
  a := 0#32
  b := 0#32
  c := 0#32
  d := 0#32
  pvalid := 0b0000#4
  input := []
  events := []
  fresh := 0

end Sys2Proof.Machine
end

