-- ==== Sys2Proof/Machine/Flags.lean ====
section
/-! DEFINITION. The valid bits (R23, R25) and the admission conditions read from them (R143). The
block has no condition codes (R28). -/

namespace Sys2Proof.Machine

/-- A code unit may be absorbed: `hvalid = 1` and `hrem ≠ 0` (R143, `HABS`). -/
def absorbReady (s : State) : Bool := s.hvalid && s.hrem != 0#32

/-- The hash may be drawn from: `hvalid = 1` and `hrem = 0` (R143, `HDRAW` and `PSEED`). -/
def drawReady (s : State) : Bool := s.hvalid && s.hrem == 0#32

/-- The generator is fully seeded: `pvalid = 0b1111` (R143, `PSTEP` and `GEN`). -/
def prngReady (s : State) : Bool := s.pvalid == allValid

/-- `pvalid` with bit `k` set (R104 to R107). -/
def setValid (k : Nat) (v : BitVec 4) : BitVec 4 := v ||| (1#4 <<< k)

/-- The two bits of a response code on the port (R67). -/
def codeBits : RspCode → BitVec 2
  | .ok => 0#2
  | .illegal => 1#2
  | .invalidArgument => 2#2
  | .sequence => 3#2

end Sys2Proof.Machine
end

