-- ==== Sys2Proof/Machine/Ops.lean ====
section
/-! DEFINITION. The operations every command is made of: putting events on the output ports,
answering (`Respond`, R15), raising an error (R145), reading and writing the generator registers
together, and giving up a sub-block's state (R120 to R122, R170). Raising an error is this block's
only form of taking an exception; there is nothing to return from (R146). Each is one update of the
state. -/

namespace Sys2Proof.Machine

/-- Put events on the output ports, after those already there (R42, R67). -/
def pushEvents (es : List PortEvent) (s : State) : State := { s with events := s.events ++ es }

/-- `Respond(OK, data)` after bytes: the command's bytes, then its one response (R15, R42, R67). -/
def respondAfter (bytes : List PortEvent) (data : Word) (s : State) :
    Host.Outcome State Fault Refusal :=
  .next (pushEvents (bytes ++ [.response ⟨.ok, data⟩]) s)

/-- `Respond(OK, data)` of a command without bytes (R15, R67). -/
def respondOk (data : Word) (s : State) : Host.Outcome State Fault Refusal :=
  .next (pushEvents [.response ⟨.ok, data⟩] s)

/-- `raise <Error>`: no state is written, nothing is emitted, the response is `(code, 0)` (R15,
R145). -/
def raise (code : RspCode) (s : State) : Host.Outcome State Fault Refusal :=
  .next (pushEvents [.response ⟨code, 0#32⟩] s)

/-- The four generator registers (R24). -/
def prngOf (s : State) : Prng := ⟨s.a, s.b, s.c, s.d⟩

/-- Write the four generator registers (R24). -/
def setPrng (p : Prng) (s : State) : State := { s with a := p.a, b := p.b, c := p.c, d := p.d }

/-- The generator is seeded and the hash is given up: all generator registers become valid,
`hvalid` and `hrem` are cleared, and `h` becomes unspecified, a free value (R23, R25, R120; log
entry 2). -/
def handOver (p : Prng) (s : State) : State :=
  { s with
    a := p.a
    b := p.b
    c := p.c
    d := p.d
    pvalid := allValid
    h := Config.freeWord s.fresh
    hrem := 0#32
    hvalid := false
    fresh := s.fresh + 1 }

/-- The generator is given up: `pvalid` is cleared and `a`, `b`, `c`, `d` become unspecified, free
values (R25, R121; log entry 2). -/
def forgetPrng (s : State) : State :=
  { s with
    a := Config.freeWord s.fresh
    b := Config.freeWord (s.fresh + 1)
    c := Config.freeWord (s.fresh + 2)
    d := Config.freeWord (s.fresh + 3)
    pvalid := 0b0000#4
    fresh := s.fresh + 4 }

/-- Everything is given up: the state `CLR` and a reset between two commands leave, the data
registers free values (R34, R122, R170; log entry 2). -/
def forgetAll (s : State) : State :=
  { s with
    h := Config.freeWord s.fresh
    hrem := 0#32
    hvalid := false
    a := Config.freeWord (s.fresh + 1)
    b := Config.freeWord (s.fresh + 2)
    c := Config.freeWord (s.fresh + 3)
    d := Config.freeWord (s.fresh + 4)
    pvalid := 0b0000#4
    fresh := s.fresh + 5 }

end Sys2Proof.Machine
end

