-- ==== Sys2Proof/Machine/PrngFn.lean ====
section
/-! DEFINITION. The pure functions of `prng_engine`: the step (R100), the byte of a draw (R102) and
the byte loop of `GEN` (R121) with its stream form (R42). -/

namespace Sys2Proof.Machine

/-- `prng_step(a, b, c, d) = ((a', b', c'', d'), t)` (R100). `a'`, `b'` and `c1` read only the old
registers; `t` adds the new counter. -/
def prngStep (p : Prng) : Prng × Word :=
  let t0 := add32 p.a p.b
  let a' := xor32 p.b (shr32 p.b stepShiftRight)
  let b' := add32 p.c (shl32 p.c stepShiftLeft)
  let c1 := rotl32 p.c stepRotate
  let d' := add32 p.d 1#32
  let t := add32 t0 d'
  let c2 := add32 c1 t
  (⟨a', b', c2, d'⟩, t)

/-- `byte_of(t) = t[31:24]` (R102). -/
def byteOf (t : Word) : Byte := t.extractLsb' 24 8

/-- The draws of `n` successive steps, first draw first (R121). -/
def draws : Nat → Prng → List Word
  | 0, _ => []
  | n + 1, p => (prngStep p).2 :: draws n (prngStep p).1

/-- The generator after `n` successive steps (R110, R121). -/
def stepMany : Nat → Prng → Prng
  | 0, p => p
  | n + 1, p => stepMany n (prngStep p).1

/-- The bytes of a generation: one step per byte, one byte per step (R112, R121). -/
def genBytes (n : Nat) (p : Prng) : List Byte := (draws n p).map byteOf

/-- Bytes put on the stream from index `i` on, the last of them carrying `out_last` (R42). -/
def streamFrom : Nat → List Byte → List PortEvent
  | _, [] => []
  | i, v :: vs => .byte ⟨BitVec.ofNat 31 i, v, vs.isEmpty⟩ :: streamFrom (i + 1) vs

end Sys2Proof.Machine
end

