-- ==== Sys2Proof/Machine/ByteGen.lean ====
section
/-! DEFINITION. The commands that join the two sub-blocks: `PSEED`, `GEN`, `CLR` (R120 to R122). -/

namespace Sys2Proof.Machine

/-- The generator seeded with four successive draws of the hash: the first to `a`, the fourth to
`d` (R120). -/
def seedPrng (h : Word) : Prng :=
  let w1 := hashFinal h
  let w2 := hashFinal w1
  let w3 := hashFinal w2
  let w4 := hashFinal w3
  ⟨w1, w2, w3, w4⟩

/-- `PSEED` (R120). -/
def execPseed (s : State) : Host.Outcome State Fault Refusal :=
  if drawReady s then respondOk 0#32 (handOver (seedPrng s.h) s)
  else raise .sequence s

/-- `GEN n` (R121): the operand is judged before the state (R144); then `n` steps, a byte for each,
and the generator is given up. -/
def execGen (arg : Word) (s : State) : Host.Outcome State Fault Refusal :=
  let n := signed32 arg
  if n < 0 then raise .invalidArgument s
  else if prngReady s then
    respondAfter (streamFrom 0 (genBytes n.toNat (prngOf s))) (BitVec.ofInt 32 n) (forgetPrng s)
  else raise .sequence s

/-- `CLR` (R122). -/
def execClr (s : State) : Host.Outcome State Fault Refusal :=
  respondOk 0#32 (forgetAll s)

end Sys2Proof.Machine
end

