-- ==== Sys2Proof/Machine/Engine.lean ====
section
/-! DEFINITION. The commands of `prng_engine`: `PLDA`, `PLDB`, `PLDC`, `PLDD`, `PSTEP` (R104 to
R108). -/

namespace Sys2Proof.Machine

/-- `PLDA w` (R104). -/
def execPlda (w : Word) (s : State) : Host.Outcome State Fault Refusal :=
  respondOk 0#32 { s with a := w, pvalid := setValid 0 s.pvalid }

/-- `PLDB w` (R105). -/
def execPldb (w : Word) (s : State) : Host.Outcome State Fault Refusal :=
  respondOk 0#32 { s with b := w, pvalid := setValid 1 s.pvalid }

/-- `PLDC w` (R106). -/
def execPldc (w : Word) (s : State) : Host.Outcome State Fault Refusal :=
  respondOk 0#32 { s with c := w, pvalid := setValid 2 s.pvalid }

/-- `PLDD w` (R107). -/
def execPldd (w : Word) (s : State) : Host.Outcome State Fault Refusal :=
  respondOk 0#32 { s with d := w, pvalid := setValid 3 s.pvalid }

/-- `PSTEP` (R108): one step, the response is its draw, no byte is emitted. -/
def execPstep (s : State) : Host.Outcome State Fault Refusal :=
  if prngReady s then
    respondOk (prngStep (prngOf s)).2 (setPrng (prngStep (prngOf s)).1 s)
  else raise .sequence s

end Sys2Proof.Machine
end

