-- ==== Sys2Proof/Machine/Hash.lean ====
section
/-! DEFINITION. The commands of `string_hash_expand`: `HINIT`, `HABS`, `HDRAW` (R83 to R85). -/

namespace Sys2Proof.Machine

/-- `HINIT len` (R83): admitted in every state. -/
def execHinit (len : Word) (s : State) : Host.Outcome State Fault Refusal :=
  respondOk 0#32 { s with h := hashInit len, hrem := len, hvalid := true }

/-- `HABS c` (R84). -/
def execHabs (c : CodeUnit) (s : State) : Host.Outcome State Fault Refusal :=
  if absorbReady s then respondOk 0#32 { s with h := hashAbsorb s.h c, hrem := s.hrem - 1#32 }
  else raise .sequence s

/-- `HDRAW` (R85): the response carries the value just written to `h`. -/
def execHdraw (s : State) : Host.Outcome State Fault Refusal :=
  if drawReady s then respondOk (hashFinal s.h) { s with h := hashFinal s.h }
  else raise .sequence s

end Sys2Proof.Machine
end

