-- ==== Sys2Proof/Machine/Dispatch.lean ====
section
/-! DEFINITION. One arm per command, each a direct call of the command's meaning. -/

namespace Sys2Proof.Machine

-- The command has been taken from the host's input and decoded (Machine/Command.lean).
def exec (i : Instr) (s : State) : Host.Outcome State Fault Refusal :=
  match i with
  | .hinit len => Sys2Proof.Machine.execHinit len s
  | .habs c => Sys2Proof.Machine.execHabs c s
  | .hdraw => Sys2Proof.Machine.execHdraw s
  | .pseed => Sys2Proof.Machine.execPseed s
  | .pstep => Sys2Proof.Machine.execPstep s
  | .gen arg => Sys2Proof.Machine.execGen arg s
  | .clr => Sys2Proof.Machine.execClr s
  | .plda w => Sys2Proof.Machine.execPlda w s
  | .pldb w => Sys2Proof.Machine.execPldb w s
  | .pldc w => Sys2Proof.Machine.execPldc w s
  | .pldd w => Sys2Proof.Machine.execPldd w s

end Sys2Proof.Machine
end

