-- ==== Sys2Proof/Machine/Command.lean ====
section
/-! DEFINITION. Taking what the host presents: a command word is decoded and executed, or is
illegal (R16, R65, R144); a reset between two commands (R170). -/

namespace Sys2Proof.Machine

/-- One command word (R16): a word that spells no command raises `ILLEGAL`, whatever the state
(R65, R141, R144). -/
def runWord (w : CommandWord) (s : State) : Host.Outcome State Fault Refusal :=
  match decode w with
  | .ok i => exec i s
  | .error _ => raise .illegal s

/-- Reset between two commands (R170): the reset state of R34, no response, and what has been
transferred stays transferred. The data registers become free values (log entries 2 and 7). -/
def resetBlock (s : State) : State := forgetAll s

/-- What one host event does to the block (R49). -/
def runHostEvent (e : HostEvent) (s : State) : Host.Outcome State Fault Refusal :=
  match e with
  | .command w => runWord w s
  | .reset => .next (resetBlock s)

end Sys2Proof.Machine
end

