-- ==== Sys2Proof/Machine/Step.lean ====
section
/-! DEFINITION. One step: the host's next event takes effect, completely, before the one after it
(R48). With nothing presented the block is idle and holds its state (R153). -/

namespace Sys2Proof.Machine

/-- One step of the machine (R16, R48). -/
def step (s : State) : Host.Outcome State Fault Refusal :=
  match s.input with
  | [] => .next s
  | e :: rest => runHostEvent e { s with input := rest }

/-- The state in which the host presents next the command word whose bits are `w` (of which the
opcode table gives `nbits`). A number that needs more than 36 bits is no command word and presents
nothing (log entry 10). -/
def State.withFetchWord (s : State) (nbits w : Nat) : State :=
  let bits := w % 2 ^ nbits
  if bits < 2 ^ 36 then { s with input := .command (BitVec.ofNat 36 bits) :: s.input } else s

end Sys2Proof.Machine
end

