-- ==== Sys2Proof/Machine/Ports.lean ====
section
/-! DEFINITION. The block seen one clock cycle at a time through its ports (R69, R170): a layer over
the command-level machine, which needs none of it. A command word is taken when it is offered and
the block is ready; its state change is made then, and its bytes and its response are transferred
in the cycles that follow, after delays the spec leaves open (R177, U12; log entry 9). -/

namespace Sys2Proof.Machine

/-- What the host drives in one cycle (R69). -/
structure PortIn where
  rst : Bool
  cmdValid : Bool
  cmdOp : BitVec 4
  cmdArg : BitVec 32
  outReady : Bool
  deriving DecidableEq, Repr

/-- What the block drives in one cycle (R69). `rsp_valid` and `out_valid` are high exactly when
`rsp` and `out` hold something; the lines beside a low valid line carry nothing (log entry 9). -/
structure PortOut where
  cmdReady : Bool
  rsp : Option Response
  out : Option StreamByte
  deriving DecidableEq, Repr

/-- The block between two cycles: its command-level state, the port events already transferred,
those of the command in progress still to be transferred, the cycles left before the next of them
is offered, and a count of cycles. -/
structure PortState where
  block : State
  sent : List PortEvent
  pending : List PortEvent
  wait : Nat
  cycles : Nat
  deriving DecidableEq, Repr

/-- The block at power-on (R170). -/
def portReset : PortState where
  block := State.reset
  sent := []
  pending := []
  wait := 0
  cycles := 0

/-- The command word on the command port (R60). -/
def cmdWord (i : PortIn) : CommandWord := wordOf i.cmdOp i.cmdArg

/-- The outputs in one cycle: all low while `rst` is high (R170); ready when no command is in
progress; otherwise the next byte or the response, once its delay is over (R69). -/
def portOutputs (p : PortState) (i : PortIn) : PortOut :=
  if i.rst then { cmdReady := false, rsp := none, out := none }
  else
    match p.pending with
    | [] => { cmdReady := true, rsp := none, out := none }
    | .byte b :: _ =>
      { cmdReady := false, rsp := none, out := if p.wait = 0 then some b else none }
    | .response r :: _ =>
      { cmdReady := false, rsp := if p.wait = 0 then some r else none, out := none }

/-- An event that this cycle can transfer: a byte needs `out_ready`, a response needs nothing
(R69). -/
def canTransfer (e : PortEvent) (i : PortIn) : Bool :=
  match e with
  | .byte _ => i.outReady
  | .response _ => true

/-- The block after the command-level machine has executed one command word. -/
def blockAfter (w : CommandWord) (s : State) : State :=
  match runWord w s with
  | .next t => t
  | .fault _ => s
  | .refused _ => s

/-- The command port in a cycle in which the block is ready (R69). -/
def takeCommand (p : PortState) (i : PortIn) : PortState :=
  if i.cmdValid then
    { p with
      block := blockAfter (cmdWord i) p.block
      pending := (blockAfter (cmdWord i) p.block).events.drop p.block.events.length
      wait := Config.latency p.cycles }
  else p

/-- The output ports in a cycle in which a command is in progress (R69). -/
def transferNext (p : PortState) (e : PortEvent) (rest : List PortEvent) (i : PortIn) : PortState :=
  if p.wait = 0 then
    if canTransfer e i then
      { p with sent := p.sent ++ [e], pending := rest, wait := Config.latency p.cycles }
    else p
  else { p with wait := p.wait - 1 }

/-- Reset at a clock edge (R170): a command in progress is abandoned without a response, the bytes
it had transferred stay transferred, and no further byte of it follows. -/
def portAbandon (p : PortState) : PortState :=
  { p with
    block := resetBlock { p.block with events := p.sent }
    pending := []
    wait := 0 }

/-- One rising edge of the clock (R69, R170). -/
def clockEdge (p : PortState) (i : PortIn) : PortState :=
  let q := { p with cycles := p.cycles + 1 }
  if i.rst then portAbandon q
  else
    match p.pending with
    | [] => takeCommand q i
    | e :: rest => transferNext q e rest i

end Sys2Proof.Machine
end

