-- ==== Sys2Proof/Machine/Pseudo.lean ====
section
/-! DEFINITION. The pseudo-commands (R71): fixed expansions into commands, with the code units of a
text (R90). -/

namespace Sys2Proof.Machine

/-- The UTF-16 code units of a character: itself on the Basic Multilingual Plane, else its
surrogate pair, high surrogate first (R71, R90; the pair is marked there as general knowledge, log
entry 16). -/
def unitsOfChar (c : Char) : List CodeUnit :=
  if c.toNat < 0x10000 then [BitVec.ofNat 16 c.toNat]
  else
    [ BitVec.ofNat 16 (0xD800 + (c.toNat - 0x10000) / 0x400),
      BitVec.ofNat 16 (0xDC00 + (c.toNat - 0x10000) % 0x400) ]

/-- The code units of a text, in order (R71). -/
def unitsOfText (s : List Char) : List CodeUnit := s.flatMap unitsOfChar

/-- A pseudo-command with its text given as code units. -/
inductive Pseudo where
  | hstr (seed : List CodeUnit)
  | hash4 (seed : List CodeUnit)
  | pload (wa wb wc wd : Word)
  | randomBytes (n : Word) (seed : List CodeUnit)
  deriving DecidableEq, Repr

/-- `HINIT L`, then `HABS` for each unit: the expansion of `HSTR` for a seed of `L` units (R43,
R71). -/
def seedCommands (seed : List CodeUnit) : List Instr :=
  .hinit (BitVec.ofNat 32 seed.length) :: seed.map .habs

/-- A seed's length is a length the operand of `HINIT` can carry (R62, U7). -/
def seedFits (seed : List CodeUnit) : Bool := decide (seed.length < 2 ^ 32)

/-- The expansion (R71). A seed of `2^32` units or more has none (U7). -/
def expand : Pseudo → Option (List Instr)
  | .hstr seed => if seedFits seed then some (seedCommands seed) else none
  | .hash4 seed =>
    if seedFits seed then some (seedCommands seed ++ [.hdraw, .hdraw, .hdraw, .hdraw]) else none
  | .pload wa wb wc wd => some [.plda wa, .pldb wb, .pldc wc, .pldd wd]
  | .randomBytes n seed =>
    if seedFits seed then some (seedCommands seed ++ [.pseed, .gen n]) else none

end Sys2Proof.Machine
end

