-- ==== Sys2Proof/Machine/System.lean ====
section
/-! DEFINITION. Several instances (R151, D20): a list of states that share nothing. -/

namespace Sys2Proof.Machine

/-- `N_INST` instances, each in the reset state (R151). DESIGN CHOICE (log entry 17): every instance
counts its free values from the same reset value, so two instances that have taken equally many hold
equal unspecified registers, which the spec does not say (U1, U2). -/
def systemReset : List State := List.replicate Config.nInst State.reset

/-- The host presents an event to instance `k`, after what it has already presented there. -/
def systemPresent (k : Nat) (e : HostEvent) (sys : List State) : List State :=
  sys.modify k fun s => { s with input := s.input ++ [e] }

/-- Instance `k` takes one step; no instance stands at a place beyond the list. -/
def systemStep (k : Nat) (sys : List State) : Option (List State) :=
  match sys[k]? with
  | none => none
  | some s =>
    match step s with
    | .next t => some (sys.set k t)
    | .fault _ => none
    | .refused _ => none

end Sys2Proof.Machine
end

