-- ==== Sys2Proof/Safety.lean ====
section
/-! DEFINITION. The terms the claims use: running commands and steps in order, the functions the
spec says the block computes (R86, R123), the invariants, and what can be seen of a state. -/

namespace Sys2Proof.Safety

open Sys2Proof.Machine

/-- The fold of `exec` over a list of commands (R16). -/
def execAll : List Instr → State → Host.Outcome State Fault Refusal
  | [], s => .next s
  | i :: is, s =>
    match exec i s with
    | .next t => execAll is t
    | .fault r => .fault r
    | .refused r => .refused r

/-- `k` steps of the machine. -/
def stepAll : Nat → State → Host.Outcome State Fault Refusal
  | 0, s => .next s
  | k + 1, s =>
    match step s with
    | .next t => stepAll k t
    | .fault r => .fault r
    | .refused r => .refused r

/-- The host presents these commands. -/
def presented (is : List Instr) : List HostEvent := is.map fun i => .command (encode i)

/-- `A(s)`: the accumulator after a whole seed (R86). -/
def accumulate (seed : List CodeUnit) : Word :=
  seed.foldl hashAbsorb (hashInit (BitVec.ofNat 32 seed.length))

/-- `W_k` counted from an accumulator: `k` successive draws (R86). -/
def hashDraw : Nat → Word → Word
  | 0, h => h
  | k + 1, h => hashFinal (hashDraw k h)

/-- The bytes of the source's `randomBytes(n, s)` (R123). -/
def randomBytes (n : Nat) (seed : List CodeUnit) : List Byte :=
  genBytes n (seedPrng (accumulate seed))

/-- The draw as the number it stands for, `t · 2^−32` (R101). -/
def drawValue (t : Word) : ℚ := (t.toNat : ℚ) / 2 ^ 32

/-- The port events are whole answers, one after another: a response alone, or the bytes of a
generation with indices from 0 on, `out_last` on the last byte only, and then a response with code
0 and the number of bytes (R42, R67, R68). Every error's response carries 0 (R67). The number counts
the bytes passed of the answer being read, the flag says that the last of them was `out_last`. -/
def wholeAnswers : Bool → Nat → List PortEvent → Bool
  | closed, k, [] => !closed && k == 0
  | closed, k, .byte b :: rest => !closed && b.index.toNat == k && wholeAnswers b.last (k + 1) rest
  | true, k, .response r :: rest =>
    r.code == .ok && r.data.toNat == k && wholeAnswers false 0 rest
  | false, k, .response r :: rest =>
    k == 0 && (r.code == .ok || r.data == 0#32) && wholeAnswers false 0 rest

/-- The invariant of the command-level machine: `hvalid = 0` implies `hrem = 0` (R26), and the
ports have carried whole answers. -/
def Inv (s : State) : Prop :=
  (s.hvalid = false → s.hrem = 0#32) ∧ wholeAnswers false 0 s.events = true

/-- Two states agree on every register a rule may read: a data register counts only while its valid
bit is 1 (R23, R25). -/
def SameRegisters (s t : State) : Prop :=
  s.hvalid = t.hvalid ∧ s.hrem = t.hrem ∧ s.pvalid = t.pvalid ∧
  (s.hvalid = true → s.h = t.h) ∧
  (s.pvalid.getLsbD 0 = true → s.a = t.a) ∧
  (s.pvalid.getLsbD 1 = true → s.b = t.b) ∧
  (s.pvalid.getLsbD 2 = true → s.c = t.c) ∧
  (s.pvalid.getLsbD 3 = true → s.d = t.d)

/-- Two states that nothing outside can tell apart (R23, R25, R29): the registers a rule may read,
what the ports have carried and what the host will present. -/
def SameVisible (s t : State) : Prop :=
  SameRegisters s t ∧ s.input = t.input ∧ s.events = t.events

/-- The state with one more answer on the ports and nothing else changed. -/
def answered (s : State) (code : RspCode) (data : Word) : State :=
  { s with events := s.events ++ [.response ⟨code, data⟩] }

/-- What the port layer has carried and has still to carry is what the command-level machine has
produced (R42, R67, R69), and what is still to be carried ends with the response of the one command
in progress (R69). -/
def PortInv (p : PortState) : Prop :=
  p.sent ++ p.pending = p.block.events ∧
  (p.pending ≠ [] → ∃ bs r, p.pending = bs ++ [.response r] ∧
    ∀ e ∈ bs, ∃ b, e = .byte b)

/-- The port layer after one edge for each element of a list of inputs. -/
def clockEdges : List PortIn → PortState → PortState
  | [], p => p
  | i :: is, p => clockEdges is (clockEdge p i)

end Sys2Proof.Safety
end

