-- ==== Sys2Proof/Certificates/Slice0/Obligations.lean ====
section
/-! DEFINITION. The statements for the provers. Registers, responses and bytes are given in Lean's
own bit-vector operations wherever a rule gives a formula, not through the model's functions. No
statement says anything of a free value. -/

open Sys2Proof Sys2Proof.Machine Sys2Proof.Safety

/-! ### Primitives and decoding -/

/-- R8, R9, R11 to R14: each primitive in natural or integer arithmetic, a rotation bit by bit. That
the signed reading of a product's factors gives the same bits is the spec's own inference (R9,
"[derived: from the definition of two's complement]"). -/
def Obligations.PrimitivesAreModularArithmetic : Prop :=
  ∀ x y : Word,
    (add32 x y).toNat = (x.toNat + y.toNat) % 2 ^ 32 ∧
    (mul32 x y).toNat = (x.toNat * y.toNat) % 2 ^ 32 ∧
    mul32 x y = BitVec.ofInt 32 (signed32 x * signed32 y) ∧
    (∀ n, 0 < n → n < 32 →
      (shr32 x n).toNat = x.toNat / 2 ^ n ∧
      (shl32 x n).toNat = (x.toNat * 2 ^ n) % 2 ^ 32 ∧
      rotl32 x n = shl32 x n ||| shr32 x (32 - n) ∧
      ∀ k, k < 32 → (rotl32 x n).getLsbD ((k + n) % 32) = x.getLsbD k) ∧
    (x.getLsbD 31 = false → signed32 x = x.toNat) ∧
    (x.getLsbD 31 = true → signed32 x = (x.toNat : Int) - 2 ^ 32)

/-- R60, R61, R64: no bit of a command is dropped on the way to its word and back. -/
def Obligations.DecodeOfEncodeIsTheCommand : Prop :=
  ∀ i : Instr, decode (encode i) = .ok i

/-- R61, R64, R65: each command has one word, so no word is a second spelling of a command. -/
def Obligations.EncodeOfDecodeIsTheWord : Prop :=
  ∀ (w : CommandWord) (i : Instr), decode w = .ok i → encode i = w

/-- R64, row by row: `cw AND mask = match` exactly when the word spells the row's command, with the
operand that R62 reads; and no word matches two rows. -/
def Obligations.WordsSpellTheRowTheyMatch : Prop :=
  (∀ w : CommandWord,
    (w &&& 0xF00000000#36 = 0x100000000#36 ↔ decode w = .ok (.hinit (w.extractLsb' 0 32))) ∧
    (w &&& 0xFFFFF0000#36 = 0x200000000#36 ↔ decode w = .ok (.habs (w.extractLsb' 0 16))) ∧
    (w &&& 0xFFFFFFFFF#36 = 0x300000000#36 ↔ decode w = .ok .hdraw) ∧
    (w &&& 0xFFFFFFFFF#36 = 0x400000000#36 ↔ decode w = .ok .pseed) ∧
    (w &&& 0xFFFFFFFFF#36 = 0x500000000#36 ↔ decode w = .ok .pstep) ∧
    (w &&& 0xF00000000#36 = 0x600000000#36 ↔ decode w = .ok (.gen (w.extractLsb' 0 32))) ∧
    (w &&& 0xFFFFFFFFF#36 = 0x700000000#36 ↔ decode w = .ok .clr) ∧
    (w &&& 0xF00000000#36 = 0x800000000#36 ↔ decode w = .ok (.plda (w.extractLsb' 0 32))) ∧
    (w &&& 0xF00000000#36 = 0x900000000#36 ↔ decode w = .ok (.pldb (w.extractLsb' 0 32))) ∧
    (w &&& 0xF00000000#36 = 0xA00000000#36 ↔ decode w = .ok (.pldc (w.extractLsb' 0 32))) ∧
    (w &&& 0xF00000000#36 = 0xB00000000#36 ↔ decode w = .ok (.pldd (w.extractLsb' 0 32)))) ∧
  opcodeMap.Pairwise fun r q => ∀ w : CommandWord, ¬(r.covers w = true ∧ q.covers w = true)

/-- R141: which words are illegal. R65, R145: what an illegal word does in every state. That the
word is taken from a list in the state is the model's choice (log entry 4, DESIGN CHOICE). -/
def Obligations.IllegalWordsOnlyAnswerIllegal : Prop :=
  ∀ (w : CommandWord) (s : State) (rest : List HostEvent),
    ((∃ e, decode w = .error e) ↔
      (opOf w ∈ [0x0#4, 0xC#4, 0xD#4, 0xE#4, 0xF#4] ∨
       (opOf w = 0x2#4 ∧ (argOf w).extractLsb' 16 16 ≠ 0#16) ∨
       (opOf w ∈ [0x3#4, 0x4#4, 0x5#4, 0x7#4] ∧ argOf w ≠ 0#32))) ∧
    (s.input = .command w :: rest → (∃ e, decode w = .error e) →
      step s = .next (answered { s with input := rest } .illegal 0#32))

/-- Words of the spec's own table of encodings (95_test_vectors.md, section 2.7). -/
def Obligations.SpecWordsDecodeAsListed : Prop :=
  decode 0x1FFFFFFFF#36 = .ok (.hinit 4294967295#32) ∧
  decode 0x200000074#36 = .ok (.habs 0x0074#16) ∧
  decode 0x200010000#36 = .error .codeUnitTooWide ∧
  decode 0x300000000#36 = .ok .hdraw ∧
  decode 0x300000001#36 = .error .operandNotZero ∧
  decode 0x400000000#36 = .ok .pseed ∧
  decode 0x500000000#36 = .ok .pstep ∧
  decode 0x6FFFFFFFF#36 = .ok (.gen (BitVec.ofInt 32 (-1))) ∧
  decode 0x700000000#36 = .ok .clr ∧
  decode 0x800000001#36 = .ok (.plda 1#32) ∧
  decode 0xB00000004#36 = .ok (.pldd 4#32) ∧
  decode 0x000000000#36 = .error .reservedOpcode ∧
  decode 0xC00000000#36 = .error .reservedOpcode

/-! ### Steps -/

/-- R16, R48: a step takes the first word the host presents and executes what it decodes to; the
block is left with what the host presents after it. That the host's words stand in the state is the
model's choice (log entry 4). -/
def Obligations.StepExecutesTheDecodedWord : Prop :=
  ∀ (s : State) (w : CommandWord) (rest : List HostEvent) (i : Instr),
    s.input = .command w :: rest → decode w = .ok i →
      step s = exec i { s with input := rest }

/-- R153 (idle), R170 and R148 (reset has no response; the ports keep what they carried). That an
idle step is a step, and that a reset between two commands is one, are the model's choices (log
entries 4 and 7). -/
def Obligations.IdleHoldsAndResetClears : Prop :=
  (∀ s : State, s.input = [] → step s = .next s) ∧
  (∀ (s : State) (rest : List HostEvent), s.input = .reset :: rest →
    ∃ t, step s = .next t ∧ t.hvalid = false ∧ t.hrem = 0#32 ∧ t.pvalid = 0b0000#4 ∧
      t.input = rest ∧ t.events = s.events)

/-- The machine never stops: the model's deduction from R16, R145, R146 and R154 (log entry 6,
DEDUCED). That a state in which nothing is presented has an idle step is the model's choice (log
entry 4, DESIGN CHOICE). -/
def Obligations.EveryStepReachesAState : Prop :=
  ∀ s : State, ∃ t, step s = .next t

/-- R16, R48: stepping through presented commands is the fold of `exec` over them (log entry 4). -/
def Obligations.StepsAreTheFoldOfExec : Prop :=
  ∀ (is : List Instr) (rest : List HostEvent) (s : State),
    s.input = presented is ++ rest →
      stepAll is.length s = execAll is { s with input := rest }

/-! ### Commands -/

/-- R83, R80. -/
def Obligations.HinitStartsASeed : Prop :=
  ∀ (len : Word) (s : State),
    exec (.hinit len) s = .next
      { answered s .ok 0#32 with h := 0x6A09E667#32 ^^^ len, hrem := len, hvalid := true } ∧
    decode (wordOf 0x1#4 len) = .ok (.hinit len)

/-- R84: absorbing, the refusal by `SEQUENCE`, the words that are illegal, and that the order of two
units can matter. -/
def Obligations.HabsAbsorbsOneUnit : Prop :=
  (∀ (c : CodeUnit) (s : State),
    (s.hvalid = true → s.hrem ≠ 0#32 →
      exec (.habs c) s = .next
        { answered s .ok 0#32 with
          h := ((s.h ^^^ c.setWidth 32) * 0xCC9E2D51#32).rotateLeft 13
          hrem := s.hrem - 1#32 }) ∧
    (s.hvalid = false ∨ s.hrem = 0#32 → exec (.habs c) s = .next (answered s .sequence 0#32)) ∧
    decode (wordOf 0x2#4 (c.setWidth 32)) = .ok (.habs c) ∧
    (∀ arg : Word, arg.extractLsb' 16 16 ≠ 0#16 →
      runWord (wordOf 0x2#4 arg) s = .next (answered s .illegal 0#32))) ∧
  ∃ (h : Word) (x y : CodeUnit),
    hashAbsorb (hashAbsorb h x) y ≠ hashAbsorb (hashAbsorb h y) x

/-- R85 with R82: the draw is written to `h` and is the response. -/
def Obligations.HdrawAnswersTheNewAccumulator : Prop :=
  ∀ s : State,
    (s.hvalid = true → s.hrem = 0#32 →
      let h1 := (s.h ^^^ s.h >>> 16) * 0x85EBCA6B#32
      let h2 := (h1 ^^^ h1 >>> 13) * 0xC2B2AE35#32
      let h3 := h2 ^^^ h2 >>> 16
      exec .hdraw s = .next { answered s .ok h3 with h := h3 }) ∧
    (s.hvalid = false ∨ s.hrem ≠ 0#32 → exec .hdraw s = .next (answered s .sequence 0#32)) ∧
    decode (wordOf 0x3#4 0#32) = .ok .hdraw ∧
    (∀ arg : Word, arg ≠ 0#32 →
      runWord (wordOf 0x3#4 arg) s = .next (answered s .illegal 0#32))

/-- R120: four successive draws to `a`, `b`, `c`, `d` in this order; the hash is given up. -/
def Obligations.PseedSeedsFromFourDraws : Prop :=
  ∀ s : State,
    (s.hvalid = true → s.hrem = 0#32 →
      ∃ t, exec .pseed s = .next t ∧
        t.a = hashFinal s.h ∧
        t.b = hashFinal (hashFinal s.h) ∧
        t.c = hashFinal (hashFinal (hashFinal s.h)) ∧
        t.d = hashFinal (hashFinal (hashFinal (hashFinal s.h))) ∧
        t.pvalid = 0b1111#4 ∧ t.hvalid = false ∧ t.hrem = 0#32 ∧
        t.input = s.input ∧ t.events = s.events ++ [.response ⟨.ok, 0#32⟩]) ∧
    (s.hvalid = false ∨ s.hrem ≠ 0#32 → exec .pseed s = .next (answered s .sequence 0#32)) ∧
    decode (wordOf 0x4#4 0#32) = .ok .pseed ∧
    (∀ arg : Word, arg ≠ 0#32 →
      runWord (wordOf 0x4#4 arg) s = .next (answered s .illegal 0#32))

/-- R108 with R100: every new register from the old ones; the response is the draw. -/
def Obligations.PstepAdvancesTheGenerator : Prop :=
  ∀ s : State,
    (s.pvalid = 0b1111#4 →
      let t := s.a + s.b + (s.d + 1#32)
      exec .pstep s = .next
        { answered s .ok t with
          a := s.b ^^^ s.b >>> 9
          b := s.c + s.c <<< 3
          c := s.c.rotateLeft 21 + t
          d := s.d + 1#32 }) ∧
    (s.pvalid ≠ 0b1111#4 → exec .pstep s = .next (answered s .sequence 0#32)) ∧
    decode (wordOf 0x5#4 0#32) = .ok .pstep ∧
    (∀ arg : Word, arg ≠ 0#32 →
      runWord (wordOf 0x5#4 arg) s = .next (answered s .illegal 0#32))

/-- R121 with R42 and R102: exactly `n` bytes in index order before the response, byte `k` the top
eight bits of draw `k`, `out_last` on the last; the generator is given up and nothing else changes.
The count is negative exactly when bit 31 of the operand is 1, and is judged first. -/
def Obligations.GenEmitsOneBytePerStep : Prop :=
  ∀ (arg : Word) (s : State),
    (arg.getLsbD 31 = false → s.pvalid = 0b1111#4 →
      ∃ t bytes, exec (.gen arg) s = .next t ∧
        t.events = s.events ++ bytes ++ [.response ⟨.ok, arg⟩] ∧
        bytes.length = arg.toNat ∧
        (∀ k, k < arg.toNat →
          bytes[k]? = some (.byte
            ⟨BitVec.ofNat 31 k, (prngStep (stepMany k (prngOf s))).2.extractLsb' 24 8,
              decide (k + 1 = arg.toNat)⟩)) ∧
        t.pvalid = 0b0000#4 ∧ t.h = s.h ∧ t.hrem = s.hrem ∧ t.hvalid = s.hvalid ∧
        t.input = s.input) ∧
    (arg.getLsbD 31 = false → s.pvalid ≠ 0b1111#4 →
      exec (.gen arg) s = .next (answered s .sequence 0#32)) ∧
    (arg.getLsbD 31 = true → exec (.gen arg) s = .next (answered s .invalidArgument 0#32)) ∧
    decode (wordOf 0x6#4 arg) = .ok (.gen arg)

/-- R122. -/
def Obligations.ClrForgetsEverything : Prop :=
  ∀ s : State,
    (∃ t, exec .clr s = .next t ∧ t.hvalid = false ∧ t.hrem = 0#32 ∧ t.pvalid = 0b0000#4 ∧
      t.input = s.input ∧ t.events = s.events ++ [.response ⟨.ok, 0#32⟩]) ∧
    decode (wordOf 0x7#4 0#32) = .ok .clr ∧
    (∀ arg : Word, arg ≠ 0#32 →
      runWord (wordOf 0x7#4 arg) s = .next (answered s .illegal 0#32))

/-- R104 to R107: each load writes its register and sets its own valid bit, in every state. -/
def Obligations.PldLoadsOneRegister : Prop :=
  ∀ (w : Word) (s : State),
    exec (.plda w) s = .next { answered s .ok 0#32 with a := w, pvalid := s.pvalid ||| 0b0001#4 } ∧
    exec (.pldb w) s = .next { answered s .ok 0#32 with b := w, pvalid := s.pvalid ||| 0b0010#4 } ∧
    exec (.pldc w) s = .next { answered s .ok 0#32 with c := w, pvalid := s.pvalid ||| 0b0100#4 } ∧
    exec (.pldd w) s = .next { answered s .ok 0#32 with d := w, pvalid := s.pvalid ||| 0b1000#4 } ∧
    decode (wordOf 0x8#4 w) = .ok (.plda w) ∧
    decode (wordOf 0x9#4 w) = .ok (.pldb w) ∧
    decode (wordOf 0xA#4 w) = .ok (.pldc w) ∧
    decode (wordOf 0xB#4 w) = .ok (.pldd w)

/-! ### Responses and errors, over all commands -/

/-- R143, the table: a command answers `SEQUENCE` exactly when the state does not admit it. -/
def Obligations.SequenceExactlyWhenNotAdmitted : Prop :=
  ∀ (i : Instr) (s : State), ∃ t r,
    exec i s = .next t ∧ t.events.getLast? = some (.response r) ∧
    (r.code = .sequence ↔
      match i with
      | .habs _ => s.hvalid = false ∨ s.hrem = 0#32
      | .hdraw => s.hvalid = false ∨ s.hrem ≠ 0#32
      | .pseed => s.hvalid = false ∨ s.hrem ≠ 0#32
      | .pstep => s.pvalid ≠ 0b1111#4
      | .gen arg => arg.getLsbD 31 = false ∧ s.pvalid ≠ 0b1111#4
      | .hinit _ => False
      | .clr => False
      | .plda _ => False
      | .pldb _ => False
      | .pldc _ => False
      | .pldd _ => False)

/-- R144: the word is judged first, the state second. -/
def Obligations.WordIsJudgedBeforeState : Prop :=
  ∀ (w : CommandWord) (s : State), ∃ t r,
    runWord w s = .next t ∧ t.events.getLast? = some (.response r) ∧
    (CommandWord.wellFormed w = false → r.code = .illegal) ∧
    (CommandWord.wellFormed w = true →
      (opOf w = 0x6#4 ∧ (argOf w).getLsbD 31 = true → r.code = .invalidArgument) ∧
      (¬(opOf w = 0x6#4 ∧ (argOf w).getLsbD 31 = true) → r.code = .ok ∨ r.code = .sequence))

/-- R67: every word, legal or not, is answered by exactly one response, after its bytes; only a
successful `GEN` has bytes (R42); an error's data is 0; and the codes on the port. -/
def Obligations.EveryWordIsAnsweredOnce : Prop :=
  (∀ (w : CommandWord) (s : State), ∃ t bytes r,
    runWord w s = .next t ∧ t.events = s.events ++ bytes ++ [.response r] ∧
    (∀ e ∈ bytes, ∃ b, e = PortEvent.byte b) ∧
    (bytes ≠ [] → opOf w = 0x6#4 ∧ r.code = .ok) ∧
    (r.code ≠ .ok → r.data = 0#32)) ∧
  codeBits .ok = 0#2 ∧ codeBits .illegal = 1#2 ∧ codeBits .invalidArgument = 2#2 ∧
  codeBits .sequence = 3#2

/-- R145: an error writes no state at all and emits no byte. -/
def Obligations.ErrorsWriteNoState : Prop :=
  ∀ (w : CommandWord) (s t : State) (r : Response),
    runWord w s = .next t → t.events.getLast? = some (.response r) → r.code ≠ .ok →
      t = answered s r.code 0#32

/-- R68: the data of an `OK` response. -/
def Obligations.OkResponseCarriesTheResult : Prop :=
  ∀ (i : Instr) (s t : State) (data : Word),
    exec i s = .next t → t.events.getLast? = some (.response ⟨.ok, data⟩) →
      data = match i with
        | .hdraw => t.h
        | .pstep => s.a + s.b + s.d + 1#32
        | .gen arg => arg
        | .hinit _ => 0#32
        | .habs _ => 0#32
        | .pseed => 0#32
        | .clr => 0#32
        | .plda _ => 0#32
        | .pldb _ => 0#32
        | .pldc _ => 0#32
        | .pldd _ => 0#32

/-- R83, R84, R85 against R104 to R108 and R121: the frames of the two sub-blocks. No command takes
anything from what the host presents next. -/
def Obligations.SubBlocksLeaveEachOtherAlone : Prop :=
  ∀ (i : Instr) (s t : State), exec i s = .next t →
    t.input = s.input ∧
    (i = .hdraw ∨ (∃ len, i = .hinit len) ∨ (∃ c, i = .habs c) →
      t.a = s.a ∧ t.b = s.b ∧ t.c = s.c ∧ t.d = s.d ∧ t.pvalid = s.pvalid) ∧
    (i = .pstep ∨ (∃ arg, i = .gen arg) ∨
        (∃ w, i = .plda w ∨ i = .pldb w ∨ i = .pldc w ∨ i = .pldd w) →
      t.h = s.h ∧ t.hrem = s.hrem ∧ t.hvalid = s.hvalid)

/-! ### Invariants -/

/-- The first invariant of 10_state.md section 1 (derived there, "each of which preserves them") and
the form of the port streams (R42, R67, R68), kept by every step from any state that has them. The
list of port events is the model's (log entry 5). -/
def Obligations.StepKeepsInv : Prop :=
  ∀ s t : State, Inv s → step s = .next t → Inv t

/-- The reset state meets the invariant. -/
def Obligations.ResetMeetsInv : Prop :=
  Inv State.reset

/-- R34: what reset leaves, and a successful `CLR` leaves the same. The data registers are not
named: the spec leaves them unspecified. -/
def Obligations.ResetAndClrLeaveNothingValid : Prop :=
  State.reset.hvalid = false ∧ State.reset.hrem = 0#32 ∧ State.reset.pvalid = 0b0000#4 ∧
  ∀ s : State, ∃ t, exec .clr s = .next t ∧ SameRegisters t State.reset

/-- R23, R25, R34: nothing the block ever does depends on a data register whose valid bit is 0, so
two states that differ only there stay indistinguishable. -/
def Obligations.UnspecifiedRegistersAreUnobservable : Prop :=
  ∀ s t : State, SameVisible s t →
    ∃ s' t', step s = .next s' ∧ step t = .next t' ∧ SameVisible s' t'

/-- The commands that may be issued twice (20_memory.md section 3, derived there "from rules R83 to
R85, R104 to R108, R120 to R122"). -/
def Obligations.LoadsHinitAndClrAreIdempotent : Prop :=
  ∀ (i : Instr) (s : State),
    ((∃ len, i = .hinit len) ∨ i = .clr ∨
      (∃ w, i = .plda w ∨ i = .pldb w ∨ i = .pldc w ∨ i = .pldd w)) →
    ∃ t u, exec i s = .next t ∧ exec i t = .next u ∧ SameRegisters t u

/-- After reset, which commands succeed and what the others answer (70_reset_and_hazards.md section
1, derived there "from `10_state.md` rule R34 and `60_exceptions.md` rules R141 to R144"). The valid
bits and the counter are as reset leaves them; every other field is any value. -/
def Obligations.FirstCommandAfterReset : Prop :=
  ∀ (w : CommandWord) (s : State),
    s.hvalid = false → s.hrem = 0#32 → s.pvalid = 0b0000#4 →
    ∃ t r, runWord w s = .next t ∧ t.events.getLast? = some (.response r) ∧
      (r.code = .ok ↔
        ∃ x, decode w = .ok (.hinit x) ∨ decode w = .ok .clr ∨ decode w = .ok (.plda x) ∨
          decode w = .ok (.pldb x) ∨ decode w = .ok (.pldc x) ∨ decode w = .ok (.pldd x)) ∧
      (r.code = .illegal ↔ ∃ e, decode w = .error e) ∧
      (r.code = .invalidArgument ↔ ∃ n : Word, decode w = .ok (.gen n) ∧ n.getLsbD 31 = true)

/-! ### What the block computes -/

/-- A seed's commands leave `A(s)`, and the `k`-th draw after them answers `W_k`
(40_string_hash_expand.md section 3, derived there "from rules R83, R84, R85 by induction on `L` and
`k`"). -/
def Obligations.SeedCommandsComputeTheHash : Prop :=
  ∀ (seed : List CodeUnit) (s : State), seed.length < 2 ^ 32 →
    ∃ t, execAll (seedCommands seed) s = .next t ∧
      t.h = seed.foldl (fun h c => ((h ^^^ c.setWidth 32) * 0xCC9E2D51#32).rotateLeft 13)
        (0x6A09E667#32 ^^^ BitVec.ofNat 32 seed.length) ∧
      t.hrem = 0#32 ∧ t.hvalid = true ∧
      ∀ k, ∃ u, execAll (List.replicate (k + 1) .hdraw) t = .next u ∧
        u.h = hashDraw (k + 1) t.h ∧
        u.events.getLast? = some (.response ⟨.ok, hashDraw (k + 1) t.h⟩)

/-- The canonical program from any state: `HINIT L`, the `HABS` commands, `PSEED`, `GEN n`
(42_byte_generator.md section 2, derived there "from rules R83, R84, R120, R121"). -/
def Obligations.CanonicalSequenceIsRandomBytes : Prop :=
  ∀ (seed : List CodeUnit) (n : Word) (s : State), seed.length < 2 ^ 32 →
    ∃ t, execAll (seedCommands seed ++ [.pseed, .gen n]) s = .next t ∧
      t.hvalid = false ∧ t.hrem = 0#32 ∧
      (n.getLsbD 31 = false →
        t.pvalid = 0b0000#4 ∧
        t.events = s.events ++ List.replicate (seed.length + 2) (.response ⟨.ok, 0#32⟩) ++
          streamFrom 0 (randomBytes n.toNat seed) ++ [.response ⟨.ok, n⟩]) ∧
      (n.getLsbD 31 = true →
        t.pvalid = 0b1111#4 ∧ prngOf t = seedPrng (accumulate seed) ∧
        t.events = s.events ++ List.replicate (seed.length + 2) (.response ⟨.ok, 0#32⟩) ++
          [.response ⟨.invalidArgument, 0#32⟩])

/-- `PSEED` and its parts (42_byte_generator.md section 2, derived there "from rules R120,
`40_string_hash_expand.md` R85 and `41_prng_engine.md` R104 to R107"). -/
def Obligations.PseedEqualsItsParts : Prop :=
  ∀ s : State, s.hvalid = true → s.hrem = 0#32 →
    ∃ t u, exec .pseed s = .next t ∧
      execAll [.hdraw, .hdraw, .hdraw, .hdraw,
        .plda (hashDraw 1 s.h), .pldb (hashDraw 2 s.h), .pldc (hashDraw 3 s.h),
        .pldd (hashDraw 4 s.h)] s = .next u ∧
      u.a = t.a ∧ u.b = t.b ∧ u.c = t.c ∧ u.d = t.d ∧ u.pvalid = t.pvalid ∧
      t.hvalid = false ∧ u.hvalid = true ∧ u.h = hashDraw 4 s.h ∧
      t.hrem = 0#32 ∧ u.hrem = 0#32 ∧
      u.events = s.events ++
        [.response ⟨.ok, hashDraw 1 s.h⟩, .response ⟨.ok, hashDraw 2 s.h⟩,
         .response ⟨.ok, hashDraw 3 s.h⟩, .response ⟨.ok, hashDraw 4 s.h⟩,
         .response ⟨.ok, 0#32⟩, .response ⟨.ok, 0#32⟩, .response ⟨.ok, 0#32⟩,
         .response ⟨.ok, 0#32⟩]

/-- The bytes of a shorter generation begin those of a longer one, and `k` times `PSTEP` answers the
draws whose top bytes are the first `k` bytes (42_byte_generator.md section 2, derived there "from
rules R121 and `41_prng_engine.md` R108"). -/
def Obligations.ShorterGenerationsBeginLongerOnes : Prop :=
  (∀ (n m : Nat) (p : Prng), n ≤ m → genBytes n p = (genBytes m p).take n) ∧
  (∀ (k : Nat) (s : State), s.pvalid = 0b1111#4 →
    ∃ (t : State) (ts : List Word), execAll (List.replicate k .pstep) s = .next t ∧
      t.events = s.events ++ ts.map (fun d => PortEvent.response ⟨.ok, d⟩) ∧
      ts.map (fun d => d.extractLsb' 24 8) = genBytes k (prngOf s) ∧
      t.pvalid = 0b1111#4)

/-- `d` counts steps, whatever the other registers hold, and wraps (41_prng_engine.md section 3,
derived there "from rule R100"). -/
def Obligations.CounterCountsSteps : Prop :=
  ∀ (k : Nat) (p : Prng), (stepMany k p).d.toNat = (p.d.toNat + k) % 2 ^ 32

/-- 40_string_hash_expand.md section 3, derived there "from rule R82" and "computed from rules R80,
R81": the fixed point, the bijection, and a zero accumulator giving a zero seed for the generator,
which the two seeds of the rule reach. -/
def Obligations.HashFinalIsABijectionFixingZero : Prop :=
  Function.Bijective hashFinal ∧ (∀ h, hashFinal h = 0#32 ↔ h = 0#32) ∧
  seedPrng 0#32 = ⟨0#32, 0#32, 0#32, 0#32⟩ ∧
  accumulate [0x0224#16, 0x0538#16, 0x0531#16] = 0#32 ∧
  accumulate [0xDDD4#16, 0x21F5#16] = 0#32

/-- The corner case of absorbing (40_string_hash_expand.md section 1, derived there: "an odd
multiplier is invertible modulo 2^32"). -/
def Obligations.AbsorbIsZeroOnlyAtItsUnit : Prop :=
  ∀ (h : Word) (c : CodeUnit), hashAbsorb h c = 0#32 ↔ h = c.setWidth 32

/-- Two seeds that differ only in their last unit differ at every draw (40_string_hash_expand.md
section 3, derived there "from rules R81, R89"). -/
def Obligations.LastUnitChangesEveryDraw : Prop :=
  ∀ (seed : List CodeUnit) (x y : CodeUnit) (k : Nat), x ≠ y →
    hashDraw k (accumulate (seed ++ [x])) ≠ hashDraw k (accumulate (seed ++ [y]))

/-- 41_prng_engine.md section 1: the byte is `floor(draw · (256 − 0) + 0)`, over the rationals. That
the floating-point evaluation is exact is not part of the statement (log entry 13). -/
def Obligations.ByteIsTheFloorOfTheScaledDraw : Prop :=
  ∀ t : Word, 0 ≤ drawValue t ∧ drawValue t < 1 ∧
    ((byteOf t).toNat : Int) = ⌊drawValue t * (256 - 0) + 0⌋

/-- R71, R90: a character is its own unit on the Basic Multilingual Plane, and otherwise a surrogate
pair, the high one first, that gives the character back. The pair's form is "[from general
knowledge, not in source]" in the spec (log entry 16). -/
def Obligations.UnitsGiveTheCharacterBack : Prop :=
  ∀ c : Char,
    (c.toNat < 0x10000 → unitsOfChar c = [BitVec.ofNat 16 c.toNat]) ∧
    (0x10000 ≤ c.toNat → ∃ hi lo : CodeUnit, unitsOfChar c = [hi, lo] ∧
      0xD800 ≤ hi.toNat ∧ hi.toNat < 0xDC00 ∧ 0xDC00 ≤ lo.toNat ∧ lo.toNat < 0xE000 ∧
      c.toNat = 0x10000 + (hi.toNat - 0xD800) * 0x400 + (lo.toNat - 0xDC00))

/-! ### Several instances, and the ports -/

/-- R151: a step of one instance leaves the others as they are, always succeeds where there is an
instance, and steps of two instances may be taken in either order. -/
def Obligations.InstancesShareNothing : Prop :=
  ∀ (sys : List State) (k : Nat), k < sys.length →
    ∃ next, systemStep k sys = some next ∧ next.length = sys.length ∧
      (∀ j, j ≠ k → next[j]? = sys[j]?) ∧
      (∀ j, j ≠ k →
        (systemStep k sys).bind (systemStep j) = (systemStep j sys).bind (systemStep k))

/-- R69, with a command's state change made when it is taken (log entry 9): the block is ready
exactly when no command is in progress, takes a word exactly when it is offered and the block is
ready, and changes no value otherwise: a byte the host does not take stalls and changes nothing. -/
def Obligations.PortsTakeOneCommandAtATime : Prop :=
  ∀ (p : PortState) (i : PortIn), i.rst = false →
    ((portOutputs p i).cmdReady = true ↔ p.pending = []) ∧
    (i.cmdValid = true ∧ (portOutputs p i).cmdReady = true →
      runWord (i.cmdOp ++ i.cmdArg) p.block = .next (clockEdge p i).block) ∧
    (¬(i.cmdValid = true ∧ (portOutputs p i).cmdReady = true) →
      (clockEdge p i).block = p.block ∧
      (clockEdge p i).sent ++ (clockEdge p i).pending = p.sent ++ p.pending)

/-- R69 (log entry 9): what a cycle transfers is what the output ports show in it, a byte only when
the host is ready for it, a response at once. -/
def Obligations.PortsTransferWhatTheyShow : Prop :=
  ∀ (p : PortState) (i : PortIn), i.rst = false →
    (clockEdge p i).sent = p.sent ++
      (match (portOutputs p i).out with
       | some b => if i.outReady then [PortEvent.byte b] else []
       | none => []) ++
      (match (portOutputs p i).rsp with
       | some r => [PortEvent.response r]
       | none => [])

/-- R170 at the ports (log entries 7 and 9): all outputs low while `rst` is high; the command in
progress is abandoned, what was transferred stays, and the block is in the reset state and ready. -/
def Obligations.ResetAbandonsTheCommandInProgress : Prop :=
  ∀ (p : PortState) (i j : PortIn), i.rst = true → j.rst = false →
    portOutputs p i = { cmdReady := false, rsp := none, out := none } ∧
    (clockEdge p i).sent = p.sent ∧ (clockEdge p i).pending = [] ∧
    (clockEdge p i).block.events = p.sent ∧
    SameRegisters (clockEdge p i).block State.reset ∧
    (portOutputs (clockEdge p i) j).cmdReady = true

/-- Every clock edge keeps the invariant of the port layer: carried and still to be carried are
together what the commands produced, and the response of the command in progress comes last (R42,
R67, R69; log entry 9). -/
def Obligations.ClockEdgeKeepsPortInv : Prop :=
  ∀ (p : PortState) (i : PortIn), PortInv p → PortInv (clockEdge p i)

/-- R154 (log entry 9): while the host takes bytes and does not reset, a command in progress is
answered after finitely many cycles, with every byte and its response transferred in order. -/
def Obligations.EveryCommandIsAnsweredInTheEnd : Prop :=
  ∀ p : PortState, ∃ k, ∀ is : List PortIn, is.length = k →
    (∀ i ∈ is, i.rst = false ∧ i.outReady = true ∧ i.cmdValid = false) →
      (clockEdges is p).pending = [] ∧ (clockEdges is p).sent = p.sent ++ p.pending ∧
      (clockEdges is p).block = p.block
end

