-- ==== Sys2Proof/Laws/State.lean ====
section
/-! SUPPORT. One lemma per field per update of the state, true by definition, so that no proof
unfolds a record update. -/

namespace Sys2Proof.Machine

@[simp] theorem pushEvents_h (es : List PortEvent) (s : State) : (pushEvents es s).h = s.h := rfl

@[simp] theorem pushEvents_hrem (es : List PortEvent) (s : State) :
    (pushEvents es s).hrem = s.hrem := rfl

@[simp] theorem pushEvents_hvalid (es : List PortEvent) (s : State) :
    (pushEvents es s).hvalid = s.hvalid := rfl

@[simp] theorem pushEvents_a (es : List PortEvent) (s : State) : (pushEvents es s).a = s.a := rfl

@[simp] theorem pushEvents_b (es : List PortEvent) (s : State) : (pushEvents es s).b = s.b := rfl

@[simp] theorem pushEvents_c (es : List PortEvent) (s : State) : (pushEvents es s).c = s.c := rfl

@[simp] theorem pushEvents_d (es : List PortEvent) (s : State) : (pushEvents es s).d = s.d := rfl

@[simp] theorem pushEvents_pvalid (es : List PortEvent) (s : State) :
    (pushEvents es s).pvalid = s.pvalid := rfl

@[simp] theorem pushEvents_input (es : List PortEvent) (s : State) :
    (pushEvents es s).input = s.input := rfl

@[simp] theorem pushEvents_events (es : List PortEvent) (s : State) :
    (pushEvents es s).events = s.events ++ es := rfl

@[simp] theorem pushEvents_fresh (es : List PortEvent) (s : State) :
    (pushEvents es s).fresh = s.fresh := rfl

@[simp] theorem setPrng_h (p : Prng) (s : State) : (setPrng p s).h = s.h := rfl

@[simp] theorem setPrng_hrem (p : Prng) (s : State) : (setPrng p s).hrem = s.hrem := rfl

@[simp] theorem setPrng_hvalid (p : Prng) (s : State) : (setPrng p s).hvalid = s.hvalid := rfl

@[simp] theorem setPrng_a (p : Prng) (s : State) : (setPrng p s).a = p.a := rfl

@[simp] theorem setPrng_b (p : Prng) (s : State) : (setPrng p s).b = p.b := rfl

@[simp] theorem setPrng_c (p : Prng) (s : State) : (setPrng p s).c = p.c := rfl

@[simp] theorem setPrng_d (p : Prng) (s : State) : (setPrng p s).d = p.d := rfl

@[simp] theorem setPrng_pvalid (p : Prng) (s : State) : (setPrng p s).pvalid = s.pvalid := rfl

@[simp] theorem setPrng_input (p : Prng) (s : State) : (setPrng p s).input = s.input := rfl

@[simp] theorem setPrng_events (p : Prng) (s : State) : (setPrng p s).events = s.events := rfl

@[simp] theorem setPrng_fresh (p : Prng) (s : State) : (setPrng p s).fresh = s.fresh := rfl

@[simp] theorem handOver_h (p : Prng) (s : State) :
    (handOver p s).h = Config.freeWord s.fresh := rfl

@[simp] theorem handOver_hrem (p : Prng) (s : State) : (handOver p s).hrem = 0#32 := rfl

@[simp] theorem handOver_hvalid (p : Prng) (s : State) : (handOver p s).hvalid = false := rfl

@[simp] theorem handOver_a (p : Prng) (s : State) : (handOver p s).a = p.a := rfl

@[simp] theorem handOver_b (p : Prng) (s : State) : (handOver p s).b = p.b := rfl

@[simp] theorem handOver_c (p : Prng) (s : State) : (handOver p s).c = p.c := rfl

@[simp] theorem handOver_d (p : Prng) (s : State) : (handOver p s).d = p.d := rfl

@[simp] theorem handOver_pvalid (p : Prng) (s : State) : (handOver p s).pvalid = 0b1111#4 := rfl

@[simp] theorem handOver_input (p : Prng) (s : State) : (handOver p s).input = s.input := rfl

@[simp] theorem handOver_events (p : Prng) (s : State) : (handOver p s).events = s.events := rfl

@[simp] theorem handOver_fresh (p : Prng) (s : State) : (handOver p s).fresh = s.fresh + 1 := rfl

@[simp] theorem forgetPrng_h (s : State) : (forgetPrng s).h = s.h := rfl

@[simp] theorem forgetPrng_hrem (s : State) : (forgetPrng s).hrem = s.hrem := rfl

@[simp] theorem forgetPrng_hvalid (s : State) : (forgetPrng s).hvalid = s.hvalid := rfl

@[simp] theorem forgetPrng_a (s : State) : (forgetPrng s).a = Config.freeWord s.fresh := rfl

@[simp] theorem forgetPrng_b (s : State) : (forgetPrng s).b = Config.freeWord (s.fresh + 1) := rfl

@[simp] theorem forgetPrng_c (s : State) : (forgetPrng s).c = Config.freeWord (s.fresh + 2) := rfl

@[simp] theorem forgetPrng_d (s : State) : (forgetPrng s).d = Config.freeWord (s.fresh + 3) := rfl

@[simp] theorem forgetPrng_pvalid (s : State) : (forgetPrng s).pvalid = 0b0000#4 := rfl

@[simp] theorem forgetPrng_input (s : State) : (forgetPrng s).input = s.input := rfl

@[simp] theorem forgetPrng_events (s : State) : (forgetPrng s).events = s.events := rfl

@[simp] theorem forgetPrng_fresh (s : State) : (forgetPrng s).fresh = s.fresh + 4 := rfl

@[simp] theorem forgetAll_h (s : State) : (forgetAll s).h = Config.freeWord s.fresh := rfl

@[simp] theorem forgetAll_hrem (s : State) : (forgetAll s).hrem = 0#32 := rfl

@[simp] theorem forgetAll_hvalid (s : State) : (forgetAll s).hvalid = false := rfl

@[simp] theorem forgetAll_a (s : State) : (forgetAll s).a = Config.freeWord (s.fresh + 1) := rfl

@[simp] theorem forgetAll_b (s : State) : (forgetAll s).b = Config.freeWord (s.fresh + 2) := rfl

@[simp] theorem forgetAll_c (s : State) : (forgetAll s).c = Config.freeWord (s.fresh + 3) := rfl

@[simp] theorem forgetAll_d (s : State) : (forgetAll s).d = Config.freeWord (s.fresh + 4) := rfl

@[simp] theorem forgetAll_pvalid (s : State) : (forgetAll s).pvalid = 0b0000#4 := rfl

@[simp] theorem forgetAll_input (s : State) : (forgetAll s).input = s.input := rfl

@[simp] theorem forgetAll_events (s : State) : (forgetAll s).events = s.events := rfl

@[simp] theorem forgetAll_fresh (s : State) : (forgetAll s).fresh = s.fresh + 5 := rfl

@[simp] theorem prngOf_a (s : State) : (prngOf s).a = s.a := rfl

@[simp] theorem prngOf_b (s : State) : (prngOf s).b = s.b := rfl

@[simp] theorem prngOf_c (s : State) : (prngOf s).c = s.c := rfl

@[simp] theorem prngOf_d (s : State) : (prngOf s).d = s.d := rfl

@[simp] theorem prngOf_setPrng (p : Prng) (s : State) : prngOf (setPrng p s) = p := rfl

@[simp] theorem prngOf_handOver (p : Prng) (s : State) : prngOf (handOver p s) = p := rfl

end Sys2Proof.Machine
end

