-- ==== Sys2Proof/Laws/Ops.lean ====
section
/-! SUPPORT. What each shared operation does, said once. -/

namespace Sys2Proof.Machine

/-- `Respond(OK, data)` always answers, and adds one event. -/
theorem respondOk_eq_next {data : Word} {s t : State} :
    respondOk data s = .next t ↔ t = pushEvents [.response ⟨.ok, data⟩] s := by
  simp [respondOk, eq_comm]

/-- `Respond` after bytes always answers, and adds the bytes and one event. -/
theorem respondAfter_eq_next {bytes : List PortEvent} {data : Word} {s t : State} :
    respondAfter bytes data s = .next t ↔
      t = pushEvents (bytes ++ [.response ⟨.ok, data⟩]) s := by
  simp [respondAfter, eq_comm]

/-- An error always answers, and adds one event. -/
theorem raise_eq_next {code : RspCode} {s t : State} :
    raise code s = .next t ↔ t = pushEvents [.response ⟨code, 0#32⟩] s := by
  simp [raise, eq_comm]

/-- A state is its generator written back. -/
theorem setPrng_prngOf (s : State) : setPrng (prngOf s) s = s := rfl

/-- Pushing twice is pushing once. -/
theorem pushEvents_pushEvents (es fs : List PortEvent) (s : State) :
    pushEvents fs (pushEvents es s) = pushEvents (es ++ fs) s := by
  simp [pushEvents]

theorem absorbReady_iff (s : State) :
    absorbReady s = true ↔ s.hvalid = true ∧ s.hrem ≠ 0#32 := by
  simp [absorbReady]

theorem drawReady_iff (s : State) :
    drawReady s = true ↔ s.hvalid = true ∧ s.hrem = 0#32 := by
  simp [drawReady]

theorem prngReady_iff (s : State) : prngReady s = true ↔ s.pvalid = 0b1111#4 := by
  simp [prngReady, allValid]

/-- The model's reading of a signed operand is Lean's. -/
theorem signed32_eq_toInt (v : Word) : signed32 v = v.toInt := by
  have hv := v.isLt
  have hb : v.getLsbD 31 = decide (2 ^ 31 ≤ v.toNat) := by
    simp only [← BitVec.testBit_toNat, Nat.testBit_eq_decide_div_mod_eq]
    grind
  rw [signed32, hb, BitVec.toInt_eq_toNat_cond]
  by_cases h : 2 ^ 31 ≤ v.toNat
  · rw [if_pos (by simpa using h), if_neg (by omega)]; rfl
  · rw [if_neg (by simpa using h), if_pos (by omega)]

@[simp] theorem seedPrng_a (h : Word) : (seedPrng h).a = hashFinal h := rfl

@[simp] theorem seedPrng_b (h : Word) : (seedPrng h).b = hashFinal (hashFinal h) := rfl

@[simp] theorem seedPrng_c (h : Word) : (seedPrng h).c = hashFinal (hashFinal (hashFinal h)) := rfl

@[simp] theorem seedPrng_d (h : Word) :
    (seedPrng h).d = hashFinal (hashFinal (hashFinal (hashFinal h))) := rfl

theorem draws_length (n : Nat) (p : Prng) : (draws n p).length = n := by
  induction n generalizing p with
  | zero => rfl
  | succ n ih => simp [draws, ih]

theorem genBytes_length (n : Nat) (p : Prng) : (genBytes n p).length = n := by
  simp [genBytes, draws_length]

theorem streamFrom_length (i : Nat) (vs : List Byte) : (streamFrom i vs).length = vs.length := by
  induction vs generalizing i with
  | nil => rfl
  | cons v vs ih => simp [streamFrom, ih]

/-- Only bytes go on the stream. -/
theorem mem_streamFrom {i : Nat} {vs : List Byte} {e : PortEvent} (h : e ∈ streamFrom i vs) :
    ∃ b, e = .byte b := by
  induction vs generalizing i with
  | nil => simp [streamFrom] at h
  | cons v vs ih =>
    rcases List.mem_cons.mp h with rfl | h
    · exact ⟨_, rfl⟩
    · exact ih h

end Sys2Proof.Machine
end

