-- ==== Sys2Proof/Laws/Exec.lean ====
section
/-! SUPPORT. For each command that a state can turn away, the cases of what it does, said once; the
other commands are one update and a response by definition. -/

namespace Sys2Proof.Machine

theorem signed32_neg {v : Word} (h : v.getLsbD 31 = true) : signed32 v < 0 := by
  have := v.isLt
  simp only [signed32, h, if_true]
  omega

theorem signed32_nonneg {v : Word} (h : v.getLsbD 31 = false) : signed32 v = v.toNat := by
  simp only [signed32, h, Bool.false_eq_true, if_false]

/-- A signed operand goes back to its word. -/
theorem ofInt_signed32 (v : Word) : BitVec.ofInt 32 (signed32 v) = v := by
  rw [signed32_eq_toInt]
  simp

theorem execHabs_cases (c : CodeUnit) (s : State) :
    (s.hvalid = true ∧ s.hrem ≠ 0#32 ∧ execHabs c s =
      .next (pushEvents [.response ⟨.ok, 0#32⟩]
        { s with h := hashAbsorb s.h c, hrem := s.hrem - 1#32 })) ∨
    ((s.hvalid = false ∨ s.hrem = 0#32) ∧
      execHabs c s = .next (pushEvents [.response ⟨.sequence, 0#32⟩] s)) := by
  by_cases h : absorbReady s = true
  · exact .inl ⟨((absorbReady_iff s).mp h).1, ((absorbReady_iff s).mp h).2, if_pos h⟩
  · refine .inr ⟨?_, if_neg h⟩
    rw [absorbReady_iff] at h
    cases hv : s.hvalid <;> simp_all

theorem execHdraw_cases (s : State) :
    (s.hvalid = true ∧ s.hrem = 0#32 ∧ execHdraw s =
      .next (pushEvents [.response ⟨.ok, hashFinal s.h⟩] { s with h := hashFinal s.h })) ∨
    ((s.hvalid = false ∨ s.hrem ≠ 0#32) ∧
      execHdraw s = .next (pushEvents [.response ⟨.sequence, 0#32⟩] s)) := by
  by_cases h : drawReady s = true
  · exact .inl ⟨((drawReady_iff s).mp h).1, ((drawReady_iff s).mp h).2, if_pos h⟩
  · refine .inr ⟨?_, if_neg h⟩
    rw [drawReady_iff] at h
    cases hv : s.hvalid <;> simp_all

theorem execPseed_cases (s : State) :
    (s.hvalid = true ∧ s.hrem = 0#32 ∧ execPseed s =
      .next (pushEvents [.response ⟨.ok, 0#32⟩] (handOver (seedPrng s.h) s))) ∨
    ((s.hvalid = false ∨ s.hrem ≠ 0#32) ∧
      execPseed s = .next (pushEvents [.response ⟨.sequence, 0#32⟩] s)) := by
  by_cases h : drawReady s = true
  · exact .inl ⟨((drawReady_iff s).mp h).1, ((drawReady_iff s).mp h).2, if_pos h⟩
  · refine .inr ⟨?_, if_neg h⟩
    rw [drawReady_iff] at h
    cases hv : s.hvalid <;> simp_all

theorem execPstep_cases (s : State) :
    (s.pvalid = 0b1111#4 ∧ execPstep s =
      .next (pushEvents [.response ⟨.ok, (prngStep (prngOf s)).2⟩]
        (setPrng (prngStep (prngOf s)).1 s))) ∨
    (s.pvalid ≠ 0b1111#4 ∧
      execPstep s = .next (pushEvents [.response ⟨.sequence, 0#32⟩] s)) := by
  by_cases h : prngReady s = true
  · exact .inl ⟨(prngReady_iff s).mp h, if_pos h⟩
  · exact .inr ⟨fun hp => h ((prngReady_iff s).mpr hp), if_neg h⟩

theorem execGen_cases (arg : Word) (s : State) :
    (arg.getLsbD 31 = false ∧ s.pvalid = 0b1111#4 ∧ execGen arg s =
      .next (pushEvents (streamFrom 0 (genBytes arg.toNat (prngOf s)) ++ [.response ⟨.ok, arg⟩])
        (forgetPrng s))) ∨
    (arg.getLsbD 31 = false ∧ s.pvalid ≠ 0b1111#4 ∧
      execGen arg s = .next (pushEvents [.response ⟨.sequence, 0#32⟩] s)) ∨
    (arg.getLsbD 31 = true ∧
      execGen arg s = .next (pushEvents [.response ⟨.invalidArgument, 0#32⟩] s)) := by
  cases hb : arg.getLsbD 31 with
  | true => exact .inr (.inr ⟨rfl, if_pos (signed32_neg hb)⟩)
  | false =>
    have hn : ¬ signed32 arg < 0 := by rw [signed32_nonneg hb]; omega
    by_cases h : prngReady s = true
    · refine .inl ⟨rfl, (prngReady_iff s).mp h, ?_⟩
      rw [execGen, if_neg hn, if_pos h, respondAfter, ofInt_signed32, signed32_nonneg hb,
        Int.toNat_natCast]
    · exact .inr (.inl ⟨rfl, fun hp => h ((prngReady_iff s).mpr hp), by
        rw [execGen, if_neg hn, if_neg h, raise]⟩)

end Sys2Proof.Machine
end

