-- ==== Sys2Proof/Laws/PerInstr.lean ====
section
/-! SUPPORT. The family `EncodedForm`, stated for each command: its encoding is a word of the
opcode map (R64), and the must-be-zero bits of its format are zero (R61). -/

namespace Sys2Proof

/-- Masking acts on the opcode and on the operand apart. -/
theorem wordOf_and (op m : BitVec 4) (arg k : Word) :
    wordOf op arg &&& wordOf m k = wordOf (op &&& m) (arg &&& k) :=
  BitVec.and_append

theorem opOf_wordOf (op : BitVec 4) (arg : Word) : opOf (wordOf op arg) = op := by
  apply BitVec.eq_of_getLsbD_eq
  intro k hk
  have h : (wordOf op arg).getLsbD (32 + k) = op.getLsbD k := by
    refine (BitVec.getLsbD_append ..).trans ?_
    simp
  simp only [opOf, BitVec.getLsbD_extractLsb', hk, decide_true, Bool.true_and, h]

theorem argOf_wordOf (op : BitVec 4) (arg : Word) : argOf (wordOf op arg) = arg := by
  apply BitVec.eq_of_getLsbD_eq
  intro k hk
  have h : (wordOf op arg).getLsbD k = arg.getLsbD k := by
    refine (BitVec.getLsbD_append ..).trans ?_
    simp [hk]
  simp only [argOf, BitVec.getLsbD_extractLsb', hk, decide_true, Bool.true_and, Nat.zero_add, h]

theorem argOfCodeUnit_high (c : CodeUnit) : (argOfCodeUnit c).extractLsb' 16 16 = 0#16 := by
  apply BitVec.eq_of_getLsbD_eq
  intro k hk
  simp [argOfCodeUnit]

theorem argOfCodeUnit_mask (c : CodeUnit) : argOfCodeUnit c &&& 0xFFFF0000#32 = 0#32 := by
  apply BitVec.eq_of_getLsbD_eq
  intro k hk
  have h : k < 16 → (0xFFFF0000#32).getLsbD k = false := by
    intro hk
    interval_cases k <;> rfl
  by_cases hk : k < 16
  · simp [argOfCodeUnit, h hk]
  · simp [argOfCodeUnit, BitVec.getLsbD_of_ge c k (by omega)]

namespace Laws.EncodedForm

/-- The command's word is a word of the opcode map, and the operand bits its format has no use for
are zero. -/
def Statement (i : Instr) : Prop :=
  CommandWord.wellFormed (encode i) = true ∧
  match i.format with
  | .W => True
  | .U => (argOf (encode i)).extractLsb' 16 16 = 0#16
  | .N => argOf (encode i) = 0#32

/-- A word operand matches a row whose mask is the opcode alone. -/
theorem wellFormed_of_word {op : BitVec 4} (arg : Word)
    (h : ⟨wordOf op 0#32, wordOf 0xF#4 0#32⟩ ∈ opcodeMap) :
    CommandWord.wellFormed (wordOf op arg) = true := by
  refine List.any_eq_true.mpr ⟨_, h, ?_⟩
  have hop : op &&& 0xF#4 = op := BitVec.and_allOnes (x := op)
  simp [OpcodeRow.covers, wordOf_and, hop]

theorem hinit (len : Word) : Statement (.hinit len) :=
  ⟨wellFormed_of_word len (by decide), trivial⟩

theorem habs (c : CodeUnit) : Statement (.habs c) := by
  constructor
  · refine List.any_eq_true.mpr ⟨⟨wordOf 0x2#4 0#32, wordOf 0xF#4 0xFFFF0000#32⟩, by decide, ?_⟩
    simp [OpcodeRow.covers, encode, wordOf_and, argOfCodeUnit_mask]
  · show (argOf (wordOf 0x2#4 (argOfCodeUnit c))).extractLsb' 16 16 = 0#16
    rw [argOf_wordOf, argOfCodeUnit_high]

theorem hdraw : Statement .hdraw := ⟨by decide, argOf_wordOf _ _⟩

theorem pseed : Statement .pseed := ⟨by decide, argOf_wordOf _ _⟩

theorem pstep : Statement .pstep := ⟨by decide, argOf_wordOf _ _⟩

theorem gen (arg : Word) : Statement (.gen arg) :=
  ⟨wellFormed_of_word arg (by decide), trivial⟩

theorem clr : Statement .clr := ⟨by decide, argOf_wordOf _ _⟩

theorem plda (w : Word) : Statement (.plda w) :=
  ⟨wellFormed_of_word w (by decide), trivial⟩

theorem pldb (w : Word) : Statement (.pldb w) :=
  ⟨wellFormed_of_word w (by decide), trivial⟩

theorem pldc (w : Word) : Statement (.pldc w) :=
  ⟨wellFormed_of_word w (by decide), trivial⟩

theorem pldd (w : Word) : Statement (.pldd w) :=
  ⟨wellFormed_of_word w (by decide), trivial⟩

end Laws.EncodedForm

end Sys2Proof
end

