-- ==== Sys2Proof/Machine/Assembler.lean ====
section
/-! DEFINITION. The notation of R70 and R71 read as commands: one command a line, the mnemonic in
capitals, then its operand; a semicolon starts a comment. What R70 does not say (blanks, blank
lines, the letters of a hexadecimal numeral, text without escapes) is log entry 15. -/

namespace Sys2Proof.Machine

/-- A blank or a tab. -/
def isBlank (c : Char) : Bool := c == ' ' || c == '\t'

/-- A line up to its comment: a semicolon between apostrophes, or inside a text between quotes, is
a character (R70, R71). The flag says that the line is inside a text. -/
def beforeComment : Bool → List Char → List Char
  | _, [] => []
  | true, c :: rest => c :: beforeComment (c != '"') rest
  | false, '\'' :: c :: '\'' :: rest => '\'' :: c :: '\'' :: beforeComment false rest
  | false, c :: rest =>
    if c == ';' then [] else c :: beforeComment (c == '"') rest

/-- Without the blanks at both ends. -/
def trimBlanks (s : List Char) : List Char :=
  ((s.dropWhile isBlank).reverse.dropWhile isBlank).reverse

/-- The value of a decimal digit. -/
def decDigit? (c : Char) : Option Nat :=
  if '0' ≤ c && c ≤ '9' then some (c.toNat - '0'.toNat) else none

/-- The value of a hexadecimal digit. -/
def hexDigit? (c : Char) : Option Nat :=
  if 'a' ≤ c && c ≤ 'f' then some (c.toNat - 'a'.toNat + 10)
  else if 'A' ≤ c && c ≤ 'F' then some (c.toNat - 'A'.toNat + 10)
  else decDigit? c

/-- Digits in a base, the most significant first, after a value already read. -/
def readDigits (base : Nat) (digit? : Char → Option Nat) : Nat → List Char → Option Nat
  | acc, [] => some acc
  | acc, c :: rest =>
    match digit? c with
    | some v => readDigits base digit? (acc * base + v) rest
    | none => none

/-- A numeral: decimal, or hexadecimal after `0x` (R70). -/
def readNumeral (s : List Char) : Option Int :=
  match s with
  | [] => none
  | '0' :: 'x' :: c :: rest => (readDigits 16 hexDigit? 0 (c :: rest)).map Int.ofNat
  | c :: rest => (readDigits 10 decDigit? 0 (c :: rest)).map Int.ofNat

/-- The operand of `GEN`: a numeral, or a decimal numeral with a leading `-` (R70). -/
def readCount (s : List Char) : Option Int :=
  match s with
  | '-' :: c :: rest => (readDigits 10 decDigit? 0 (c :: rest)).map fun v => -Int.ofNat v
  | _ => readNumeral s

/-- A 32-bit operand, refused when out of range (R62). -/
def wordOperand (s : List Char) : Option Word :=
  match readNumeral s with
  | some n => if fitsWord n then some (BitVec.ofInt 32 n) else none
  | none => none

/-- The operand of `GEN` in two's complement, refused when out of range (R62, R70). -/
def countOperand (s : List Char) : Option Word :=
  match readCount s with
  | some n => if fitsCount n then some (BitVec.ofInt 32 n) else none
  | none => none

/-- The operand of `HABS`: a numeral, or one character of the Basic Multilingual Plane between
apostrophes (R70). -/
def unitOperand (s : List Char) : Option CodeUnit :=
  match s with
  | ['\'', c, '\''] =>
    match unitsOfChar c with
    | [u] => some u
    | _ => none
  | _ =>
    match readNumeral s with
    | some n => if fitsCodeUnit n then some (BitVec.ofInt 16 n) else none
    | none => none

/-- A text between quotes, without escapes (R71). -/
def textOperand (s : List Char) : Option (List CodeUnit) :=
  match s with
  | '"' :: rest =>
    match rest.reverse with
    | '"' :: back => if back.contains '"' then none else some (unitsOfText back.reverse)
    | _ => none
  | _ => none

/-- The parts of a text between commas, each without the blanks at its ends. -/
def commaParts (s : List Char) : List (List Char) := (s.splitOn ',').map trimBlanks

/-- The operands of `PLOAD` (R71). -/
def ploadOperands (s : List Char) : Option Pseudo :=
  match (commaParts s).map wordOperand with
  | [some wa, some wb, some wc, some wd] => some (.pload wa wb wc wd)
  | _ => none

/-- The operands of `RANDOMBYTES`: a count, then a text (R71). -/
def randomBytesOperands (s : List Char) : Option Pseudo :=
  match countOperand (trimBlanks (s.takeWhile (· != ','))),
      textOperand (trimBlanks ((s.dropWhile (· != ',')).drop 1)) with
  | some n, some seed => some (.randomBytes n seed)
  | _, _ => none

/-- A command without an operand (R70). -/
def bare (i : Instr) (operand : List Char) : Option (List Instr) :=
  if operand.isEmpty then some [i] else none

/-- The commands a mnemonic and its operand spell (R64, R70, R71). -/
def assembleCommand (mnemonic operand : List Char) : Option (List Instr) :=
  if mnemonic = "HINIT".toList then (wordOperand operand).map fun w => [.hinit w]
  else if mnemonic = "HABS".toList then (unitOperand operand).map fun c => [.habs c]
  else if mnemonic = "HDRAW".toList then bare .hdraw operand
  else if mnemonic = "PSEED".toList then bare .pseed operand
  else if mnemonic = "PSTEP".toList then bare .pstep operand
  else if mnemonic = "GEN".toList then (countOperand operand).map fun n => [.gen n]
  else if mnemonic = "CLR".toList then bare .clr operand
  else if mnemonic = "PLDA".toList then (wordOperand operand).map fun w => [.plda w]
  else if mnemonic = "PLDB".toList then (wordOperand operand).map fun w => [.pldb w]
  else if mnemonic = "PLDC".toList then (wordOperand operand).map fun w => [.pldc w]
  else if mnemonic = "PLDD".toList then (wordOperand operand).map fun w => [.pldd w]
  else if mnemonic = "HSTR".toList then (textOperand operand).bind fun u => expand (.hstr u)
  else if mnemonic = "HASH4".toList then (textOperand operand).bind fun u => expand (.hash4 u)
  else if mnemonic = "PLOAD".toList then (ploadOperands operand).bind expand
  else if mnemonic = "RANDOMBYTES".toList then (randomBytesOperands operand).bind expand
  else none

/-- The commands of one line; a line without a command has none (R70). -/
def assembleLine (line : List Char) : Option (List Instr) :=
  let body := trimBlanks (beforeComment false line)
  if body.isEmpty then some []
  else
    assembleCommand (body.takeWhile fun c => !isBlank c)
      (trimBlanks (body.dropWhile fun c => !isBlank c))

/-- The commands of lines, refused when one line is. -/
def assembleLines : List (List Char) → Option (List Instr)
  | [] => some []
  | line :: rest =>
    match assembleLine line, assembleLines rest with
    | some is, some more => some (is ++ more)
    | _, _ => none

/-- The commands of a text, one a line (R70). -/
def assemble (text : String) : Option (List Instr) := assembleLines (text.toList.splitOn '\n')

end Sys2Proof.Machine
end

