-- ==== Sys2Proof/Tests/Slice0.lean ====
section
/-! SUPPORT. Tests. Every expected value is written out from the spec: from 95_test_vectors.md (the
section is named), or from the encoding rules R60 to R65. The theorems `witness_…` show that the
hypotheses of the statements can be met, at the ends of their ranges. -/

namespace Sys2Proof.Tests

open Sys2Proof.Machine Sys2Proof.Safety

/-! ### Small states and observations -/

/-- After `HSTR "test"` (section 2.3): the accumulator `C16A474A`, nothing left to absorb. -/
def hashed : State := { State.reset with h := 0xC16A474A#32, hvalid := true }

/-- After `HINIT 1` (section 3.2): one unit still to be absorbed. -/
def absorbing : State := { State.reset with h := 0x6A09E666#32, hrem := 1#32, hvalid := true }

/-- After `PLOAD 1, 2, 3, 4` (section 3.3). -/
def loaded : State :=
  { State.reset with a := 1#32, b := 2#32, c := 3#32, d := 4#32, pvalid := 0b1111#4 }

/-- What `f` sees of the next state. -/
def see {α : Type} (f : State → α) (o : Host.Outcome State Fault Refusal) : Option α :=
  match o with
  | .next t => some (f t)
  | .fault _ => none
  | .refused _ => none

/-- A response as it stands among the port events. -/
def rsp (code : RspCode) (data : Word) : PortEvent := .response ⟨code, data⟩

/-! ### Decoding: words written out bit by bit (R60, R61, R64, R65; section 2.7) -/

theorem test_decode_hinit :
    decode 0b0001_11111111111111111111111111111110#36 = .ok (.hinit 0xFFFFFFFE#32) := by decide

theorem test_decode_habs :
    decode 0b0010_0000000000000000_1000000001110100#36 = .ok (.habs 0x8074#16) := by decide

theorem test_decode_habs_bit_16 :
    decode 0b0010_0000000000000001_0000000000000000#36 = .error .codeUnitTooWide := by decide

theorem test_decode_hdraw :
    decode 0b0011_00000000000000000000000000000000#36 = .ok .hdraw := by decide

theorem test_decode_hdraw_operand :
    decode 0b0011_00000000000000000000000000000001#36 = .error .operandNotZero := by decide

theorem test_decode_pseed :
    decode 0b0100_00000000000000000000000000000000#36 = .ok .pseed := by decide

theorem test_decode_pstep :
    decode 0b0101_00000000000000000000000000000000#36 = .ok .pstep := by decide

theorem test_decode_gen_negative :
    decode 0b0110_11111111111111111111111111111111#36 = .ok (.gen (BitVec.ofInt 32 (-1))) := by
  decide

theorem test_decode_clr :
    decode 0b0111_00000000000000000000000000000000#36 = .ok .clr := by decide

theorem test_decode_clr_operand_top_bit :
    decode 0b0111_10000000000000000000000000000000#36 = .error .operandNotZero := by decide

theorem test_decode_plda :
    decode 0b1000_00000000000000000000000000000001#36 = .ok (.plda 1#32) := by decide

theorem test_decode_pldb :
    decode 0b1001_00000000000000000000000000000010#36 = .ok (.pldb 2#32) := by decide

theorem test_decode_pldc :
    decode 0b1010_00000000000000000000000000000011#36 = .ok (.pldc 3#32) := by decide

theorem test_decode_pldd :
    decode 0b1011_00000000000000000000000000000100#36 = .ok (.pldd 4#32) := by decide

theorem test_decode_reserved :
    [0x000000000#36, 0xC00000000#36, 0xD00000000#36, 0xE00000000#36, 0xFFFFFFFFF#36].map decode =
      List.replicate 5 (.error .reservedOpcode) := by decide

theorem test_encode :
    [Instr.hinit 42#32, .habs 0x61#16, .pseed, .gen 8#32, .pldd 0xE90AC3BE#32].map encode =
      [0x10000002A#36, 0x200000061#36, 0x400000000#36, 0x600000008#36, 0xBE90AC3BE#36] := by decide

/-! ### Well-formedness: an ill-formed term for each check -/

theorem test_illFormed_words :
    [0x000000000#36, 0xC00000000#36, 0x200010000#36, 0x300000001#36, 0x400000001#36,
      0x500000001#36, 0x780000000#36].map CommandWord.wellFormed = List.replicate 7 false := by
  decide

theorem test_wellFormed_words :
    [0x1FFFFFFFF#36, 0x20000FFFF#36, 0x300000000#36, 0x6FFFFFFFF#36, 0xB00000000#36].map
      CommandWord.wellFormed = List.replicate 5 true := by decide

theorem test_fitsWord_ends :
    [(-1 : Int), 0, 2 ^ 32 - 1, 2 ^ 32].map fitsWord = [false, true, true, false] := by decide

theorem test_fitsCodeUnit_ends :
    [(-1 : Int), 0, 65535, 65536].map fitsCodeUnit = [false, true, true, false] := by decide

theorem test_fitsCount_ends :
    [(-(2 ^ 31) - 1 : Int), -(2 ^ 31), 2 ^ 31 - 1, 2 ^ 31].map fitsCount =
      [false, true, true, false] := by decide

theorem test_decodeTableWord :
    [decodeTableWord 40 0x200000074, decodeTableWord 36 0xB00000004, decodeTableWord 36 0x200010000,
      decodeTableWord 40 0x1000000000] =
      [some (.habs 0x74#16), some (.pldd 4#32), none, none] := by decide

/-! ### Primitives (section 2.1) -/

theorem test_add32 : add32 0xFF1FD2C0#32 0x5B988A14#32 = 0x5AB85CD4#32 := by decide

theorem test_mul32 : mul32 0x6A09E617#32 0xCC9E2D51#32 = 0xA0C5D847#32 := by decide

theorem test_shr32 : shr32 0xC16A474A#32 16 = 0x0000C16A#32 := by decide

theorem test_shl32 : shl32 0x2BC10D39#32 3 = 0x5E0869C8#32 := by decide

theorem test_rotl32_13 : rotl32 0x80000001#32 13 = 0x00003000#32 := by decide

theorem test_rotl32_21 : rotl32 0x12345678#32 21 = 0xCF02468A#32 := by decide

theorem test_signed32_ends :
    [0x7FFFFFFF#32, 0x80000000#32, 0xFFFFFFFF#32].map signed32 =
      [2147483647, -2147483648, -1] := by decide

/-! ### Hash functions (section 2.2) -/

theorem test_hashInit : hashInit 4#32 = 0x6A09E663#32 := by decide

theorem test_hashAbsorb : hashAbsorb 0x6A09E663#32 0x0074#16 = 0xBB08F418#32 := by decide

theorem test_hashAbsorb_top_unit : hashAbsorb 0x6A09E666#32 0xFFFF#16 = 0xDFCD3BD9#32 := by decide

theorem test_hashFinal : hashFinal 0xC16A474A#32 = 0xB14A35C8#32 := by decide

theorem test_hashFinal_top_bit : hashFinal 0x80000000#32 = 0x6D3C65A0#32 := by decide

/-! ### The generator (sections 2.4, 2.5) -/

theorem test_prngStep :
    prngStep ⟨0xB14A35C8#32, 0x4DD59CF8#32, 0x2BC10D39#32, 0x5B988A13#32⟩ =
      (⟨0x4DF37636#32, 0x89C97701#32, 0x01DDD4F5#32, 0x5B988A14#32⟩, 0x5AB85CD4#32) := by decide

theorem test_prngStep_wraps :
    prngStep ⟨0x80000000#32, 0x80000000#32, 0x80000000#32, 0xFFFFFFFF#32⟩ =
      (⟨0x80400000#32, 0x80000000#32, 0x00100000#32, 0#32⟩, 0#32) := by decide

theorem test_byteOf :
    [0x00FFFFFF#32, 0x01000000#32, 0x80000000#32, 0xFEFFFFFF#32].map byteOf =
      [0x00#8, 0x01#8, 0x80#8, 0xFE#8] := by decide

/-! ### One command each (section 3) -/

theorem test_hinit :
    see (fun t => (t.h, t.hrem, t.hvalid, t.events)) (exec (.hinit 42#32) State.reset) =
      some (0x6A09E64D#32, 42#32, true, [rsp .ok 0#32]) := by decide

theorem test_habs :
    see (fun t => (t.h, t.hrem, t.hvalid, t.events)) (exec (.habs 0x0061#16) absorbing) =
      some (0x6066FADC#32, 0#32, true, [rsp .ok 0#32]) := by decide

theorem test_habs_too_many :
    see (fun t => (t.h, t.hrem, t.events)) (exec (.habs 0x0079#16) hashed) =
      some (0xC16A474A#32, 0#32, [rsp .sequence 0#32]) := by decide

theorem test_hdraw :
    see (fun t => (t.h, t.hrem, t.hvalid, t.events)) (exec .hdraw hashed) =
      some (0xB14A35C8#32, 0#32, true, [rsp .ok 0xB14A35C8#32]) := by decide

theorem test_hdraw_too_early :
    see (fun t => (t.h, t.events)) (exec .hdraw absorbing) =
      some (0x6A09E666#32, [rsp .sequence 0#32]) := by decide

theorem test_pseed :
    see (fun t => (t.a, t.b, t.pvalid, t.hvalid)) (exec .pseed hashed) =
      some (0xB14A35C8#32, 0x4DD59CF8#32, 0b1111#4, false) := by decide +kernel

theorem test_pseed_last_two :
    see (fun t => (t.c, t.d, t.events)) (exec .pseed hashed) =
      some (0x2BC10D39#32, 0x5B988A13#32, [rsp .ok 0#32]) := by decide +kernel

theorem test_pstep :
    see (fun t => (t.a, t.b, t.c, t.d, t.events)) (exec .pstep loaded) =
      some (0x00000002#32, 0x0000001B#32, 0x00600008#32, 0x00000005#32,
        [rsp .ok 0x00000008#32]) := by decide

theorem test_pstep_unloaded :
    see (fun t => t.events) (exec .pstep { loaded with pvalid := 0b0111#4 }) =
      some [rsp .sequence 0#32] := by decide

/-- The first four bytes from (1, 2, 3, 4) are 00 00 03 0C (section 3.3). -/
theorem test_gen :
    see (fun t => (t.pvalid, t.events)) (exec (.gen 4#32) loaded) =
      some (0b0000#4, [.byte ⟨0, 0x00#8, false⟩, .byte ⟨1, 0x00#8, false⟩,
        .byte ⟨2, 0x03#8, false⟩, .byte ⟨3, 0x0C#8, true⟩, rsp .ok 4#32]) := by decide +kernel

theorem test_gen_zero :
    see (fun t => (t.pvalid, t.events)) (exec (.gen 0#32) loaded) =
      some (0b0000#4, [rsp .ok 0#32]) := by decide

theorem test_gen_negative_before_state :
    [loaded, State.reset].map
      (fun s => see (fun t => (t.pvalid, t.events)) (exec (.gen 0xFFFFFFFF#32) s)) =
      [some (0b1111#4, [rsp .invalidArgument 0#32]), some (0b0000#4, [rsp .invalidArgument 0#32])] := by
  decide

theorem test_clr :
    see (fun t => (t.hvalid, t.hrem, t.pvalid, t.events))
      (exec .clr { loaded with hvalid := true, hrem := 7#32 }) =
      some (false, 0#32, 0b0000#4, [rsp .ok 0#32]) := by decide

theorem test_plda :
    see (fun t => (t.a, t.pvalid, t.events)) (exec (.plda 5#32) State.reset) =
      some (5#32, 0b0001#4, [rsp .ok 0#32]) := by decide

theorem test_pldb :
    see (fun t => (t.b, t.pvalid)) (exec (.pldb 2#32) { State.reset with pvalid := 0b0001#4 }) =
      some (2#32, 0b0011#4) := by decide

theorem test_pldc :
    see (fun t => (t.c, t.pvalid)) (exec (.pldc 3#32) { State.reset with pvalid := 0b0011#4 }) =
      some (3#32, 0b0111#4) := by decide

theorem test_pldd :
    see (fun t => (t.d, t.pvalid)) (exec (.pldd 4#32) { State.reset with pvalid := 0b0111#4 }) =
      some (4#32, 0b1111#4) := by decide

/-- Rows 1 and 8 of section 3.4, as first words after reset. -/
theorem test_first_words :
    [0x600000004, 0x000000000].map (fun w =>
      see (fun t => t.events) (step (State.reset.withFetchWord 36 w))) =
      [some [rsp .sequence 0#32], some [rsp .illegal 0#32]] := by decide

/-! ### Notation and pseudo-commands (R70, R71; sections 1, 3) -/

/-- `RANDOMBYTES 8, "a"` is the program of section 3.2. -/
theorem test_assemble_randomBytes :
    assembleLine ['R', 'A', 'N', 'D', 'O', 'M', 'B', 'Y', 'T', 'E', 'S', ' ', '8', ',', ' ', '"',
      'a', '"'] = some [.hinit 1#32, .habs 0x61#16, .pseed, .gen 8#32] := by decide +kernel

theorem test_assemble_unit_and_comment :
    assembleLine ['H', 'A', 'B', 'S', ' ', '\'', ';', '\'', ' ', ';', ' ', 'x'] =
      some [.habs 0x3B#16] := by decide +kernel

theorem test_assemble_count :
    assembleLine ['G', 'E', 'N', ' ', '-', '1'] = some [.gen 0xFFFFFFFF#32] := by decide +kernel

theorem test_assemble_out_of_range :
    assembleLine ['H', 'A', 'B', 'S', ' ', '0', 'x', '1', '0', '0', '0', '0'] = none := by
  decide +kernel

/-- U+1F600 is the units D83D DE00, U+20AC the unit 20AC (section 2.3). -/
theorem test_units :
    unitsOfText ['\u20AC', Char.ofNat 0x1F600] = [0x20AC#16, 0xD83D#16, 0xDE00#16] := by
  decide +kernel

/-! ### Ports (R69, R170) -/

/-- A cycle in which the host offers `HINIT 0` and takes bytes. -/
def offer : PortIn where
  rst := false
  cmdValid := true
  cmdOp := 0x1#4
  cmdArg := 0#32
  outReady := true

/-- The same cycle with reset. -/
def offerInReset : PortIn := { offer with rst := true }

/-- A byte and the response of `GEN 1` still to be carried, the byte offered. -/
def carrying : PortState :=
  { portReset with
    block := { State.reset with events := [.byte ⟨0, 0x4A#8, true⟩, rsp .ok 1#32] }
    pending := [.byte ⟨0, 0x4A#8, true⟩, rsp .ok 1#32] }

theorem test_port_takes_command :
    ((portOutputs portReset offer).cmdReady, (clockEdge portReset offer).pending,
      (clockEdge portReset offer).sent) = (true, [rsp .ok 0#32], []) := by decide

theorem test_port_byte_needs_ready :
    ((clockEdge carrying offer).sent, (clockEdge carrying { offer with outReady := false }).sent) =
      ([.byte ⟨0, 0x4A#8, true⟩], []) := by decide

/-! ### Witnesses: the hypotheses of the statements can be met -/

theorem witness_Primitives : (0 < 1 ∧ 1 < 32) ∧ (0 < 31 ∧ 31 < 32) ∧
    (0x7FFFFFFF#32).getLsbD 31 = false ∧ (0x80000000#32).getLsbD 31 = true := by decide

theorem witness_EncodeOfDecode : decode 0x20000FFFF#36 = .ok (.habs 0xFFFF#16) := by decide

theorem witness_Illegal :
    ({ State.reset with input := [.command 0x200010000#36] } : State).input =
      .command 0x200010000#36 :: [] ∧ decode 0x200010000#36 = .error .codeUnitTooWide ∧
      opOf 0xF00000000#36 = 0xF#4 ∧ argOf 0x780000000#36 ≠ 0#32 := by decide

theorem witness_StepExecutes :
    (State.reset.withFetchWord 36 0x500000000).input = .command 0x500000000#36 :: [] ∧
      decode 0x500000000#36 = .ok .pstep := by decide

theorem witness_Idle_and_Reset : State.reset.input = [] ∧
    ({ loaded with input := [.reset, .reset] } : State).input = .reset :: [.reset] := by decide

theorem witness_StepsAreTheFold :
    ({ State.reset with input := [.command 0x100000001#36, .command 0x200000061#36, .reset] } :
      State).input = presented [.hinit 1#32, .habs 0x61#16] ++ [.reset] := by decide

theorem witness_Habs_ok : absorbing.hvalid = true ∧ absorbing.hrem ≠ 0#32 ∧
    ({ absorbing with hrem := 0xFFFFFFFF#32 } : State).hrem ≠ 0#32 := by decide

theorem witness_Habs_refused : State.reset.hvalid = false ∧ hashed.hrem = 0#32 ∧
    (0x00010000#32).extractLsb' 16 16 ≠ 0#16 := by decide

theorem witness_Hdraw_and_Pseed : hashed.hvalid = true ∧ hashed.hrem = 0#32 ∧
    State.reset.hvalid = false ∧ absorbing.hrem ≠ 0#32 := by decide

theorem witness_Pstep : loaded.pvalid = 0b1111#4 ∧ State.reset.pvalid ≠ 0b1111#4 := by decide

theorem witness_Gen : (0#32).getLsbD 31 = false ∧ (0x7FFFFFFF#32).getLsbD 31 = false ∧
    (0x80000000#32).getLsbD 31 = true ∧ loaded.pvalid = 0b1111#4 ∧
    ({ loaded with pvalid := 0b1110#4 } : State).pvalid ≠ 0b1111#4 := by decide

theorem witness_WordIsJudged : CommandWord.wellFormed 0xC00000000#36 = false ∧
    CommandWord.wellFormed 0x680000000#36 = true ∧
    (opOf 0x680000000#36 = 0x6#4 ∧ (argOf 0x680000000#36).getLsbD 31 = true) ∧
    CommandWord.wellFormed 0x67FFFFFFF#36 = true ∧
    ¬(opOf 0x67FFFFFFF#36 = 0x6#4 ∧ (argOf 0x67FFFFFFF#36).getLsbD 31 = true) := by decide

theorem witness_ErrorsWriteNoState :
    runWord 0x600000004#36 State.reset = .next (answered State.reset .sequence 0#32) ∧
      (answered State.reset .sequence 0#32).events.getLast? = some (rsp .sequence 0#32) ∧
      RspCode.sequence ≠ .ok := ⟨rfl, rfl, by decide⟩

theorem witness_OkResponse : ∃ t, exec (.plda 5#32) State.reset = .next t ∧
    t.events.getLast? = some (rsp .ok 0#32) := ⟨_, rfl, rfl⟩

theorem witness_OkResponse_hdraw :
    see (fun t => t.events.getLast?) (exec .hdraw hashed) =
      some (some (rsp .ok 0xB14A35C8#32)) := by decide

theorem witness_SubBlocks :
    (∃ t, exec (.hinit 1#32) loaded = .next t) ∧ (∃ t, exec (.plda 1#32) hashed = .next t) :=
  ⟨⟨_, rfl⟩, ⟨_, rfl⟩⟩

/-- The bytes of a `GEN 1` and its response, then an error, meet the invariant of the streams. -/
theorem witness_Inv :
    Inv { absorbing with events :=
      [.byte ⟨0, 0x4A#8, true⟩, rsp .ok 1#32, rsp .sequence 0#32] } :=
  ⟨by decide, by decide⟩

theorem witness_StepKeepsInv : Inv State.reset ∧ step State.reset = .next State.reset :=
  ⟨⟨by decide, by decide⟩, rfl⟩

/-- Two states that differ in registers whose valid bits are 0, and agree on what can be seen. -/
theorem witness_SameVisible :
    SameVisible State.reset { State.reset with h := 1#32, a := 2#32, d := 3#32 } ∧
      State.reset ≠ { State.reset with h := 1#32, a := 2#32, d := 3#32 } := by
  simp only [SameVisible, SameRegisters]
  decide

theorem witness_Idempotent : (∃ len, Instr.hinit 0#32 = .hinit len) ∧ Instr.clr = .clr ∧
    (∃ w, Instr.pldd 0#32 = .plda w ∨ Instr.pldd 0#32 = .pldb w ∨ Instr.pldd 0#32 = .pldc w ∨
      Instr.pldd 0#32 = .pldd w) :=
  ⟨⟨_, rfl⟩, rfl, _, .inr (.inr (.inr rfl))⟩

theorem witness_FirstCommand : State.reset.hvalid = false ∧ State.reset.hrem = 0#32 ∧
    State.reset.pvalid = 0b0000#4 ∧ decode 0x680000000#36 = .ok (.gen 0x80000000#32) := by decide

theorem witness_Seeds : ([] : List CodeUnit).length < 2 ^ 32 ∧
    [0x74#16, 0x65#16, 0x73#16, 0x74#16].length < 2 ^ 32 := by decide

theorem witness_Shorter : 0 ≤ 5 ∧ 5 ≤ 5 ∧ loaded.pvalid = 0b1111#4 := by decide

theorem witness_LastUnit : (0x61#16 : CodeUnit) ≠ 0x62#16 := by decide

theorem witness_Units : (Char.ofNat 0xFFFF).toNat < 0x10000 ∧
    0x10000 ≤ (Char.ofNat 0x10000).toNat ∧ 0x10000 ≤ (Char.ofNat 0x10FFFF).toNat := by decide

theorem witness_Instances : 0 < [State.reset, loaded].length ∧ 1 ≠ 0 ∧
    (systemStep 1 [State.reset, loaded]).isSome = true := by decide

theorem witness_Ports : offer.rst = false ∧
    (offer.cmdValid = true ∧ (portOutputs portReset offer).cmdReady = true) ∧
    ¬(offer.cmdValid = true ∧ (portOutputs carrying offer).cmdReady = true) := by decide

theorem witness_PortReset : offerInReset.rst = true ∧ offer.rst = false ∧
    (portOutputs carrying offer).out = some ⟨0, 0x4A#8, true⟩ ∧
    carrying.pending ≠ [] := by decide

theorem witness_PortInv : PortInv carrying ∧ PortInv portReset :=
  ⟨⟨rfl, fun _ => ⟨[.byte ⟨0, 0x4A#8, true⟩], ⟨.ok, 1#32⟩, rfl,
    fun _ he => ⟨_, List.mem_singleton.mp he⟩⟩⟩, rfl, fun h => absurd rfl h⟩

theorem witness_AnsweredInTheEnd :
    ∀ i ∈ List.replicate 2 { offer with cmdValid := false },
      i.rst = false ∧ i.outReady = true ∧ i.cmdValid = false := by decide

end Sys2Proof.Tests
end

section
/-! PROOFS. The statements of the scope (00_scope.md): the 32-bit primitives (R8, R9, R11 to R14),
what one step does, and steps as the fold of the commands' meanings (R16, R48). -/

namespace Sys2Proof

/-! ### The decoder undoes the encoder (R61, R64) -/

theorem argOfCodeUnit_low (c : CodeUnit) : (argOfCodeUnit c).extractLsb' 0 16 = c := by
  apply BitVec.eq_of_getLsbD_eq
  intro k hk
  simp [argOfCodeUnit, hk]; omega

@[simp] theorem decodeCodeUnit_argOfCodeUnit (c : CodeUnit) :
    decodeCodeUnit (argOfCodeUnit c) = .ok (.habs c) := by
  rw [decodeCodeUnit, if_pos (argOfCodeUnit_high c), argOfCodeUnit_low]

@[simp] theorem decodeNoOperand_zero (i : Instr) : decodeNoOperand i 0#32 = .ok i := if_pos rfl

theorem decode_encode (i : Instr) : decode (encode i) = .ok i := by
  cases i <;> simp [encode, decode, opOf_wordOf, argOf_wordOf]

end Sys2Proof

namespace Sys2Proof.Machine

open Sys2Proof.Safety

/-! ### The primitives in natural and integer arithmetic (R8 to R14) -/

theorem add32_toNat (x y : Word) : (add32 x y).toNat = (x.toNat + y.toNat) % 2 ^ 32 :=
  BitVec.toNat_add x y

theorem mul32_toNat (x y : Word) : (mul32 x y).toNat = (x.toNat * y.toNat) % 2 ^ 32 :=
  BitVec.toNat_mul x y

/-- The product's low bits do not depend on how the factors' signs are read (R9). -/
theorem mul32_eq_ofInt_signed32 (x y : Word) :
    mul32 x y = BitVec.ofInt 32 (signed32 x * signed32 y) := by
  rw [BitVec.ofInt_mul, ofInt_signed32, ofInt_signed32, mul32]

theorem shr32_toNat (x : Word) (n : Nat) : (shr32 x n).toNat = x.toNat / 2 ^ n := by
  rw [shr32, BitVec.toNat_ushiftRight, Nat.shiftRight_eq_div_pow]

theorem shl32_toNat (x : Word) (n : Nat) : (shl32 x n).toNat = (x.toNat * 2 ^ n) % 2 ^ 32 := by
  rw [shl32, BitVec.toNat_shiftLeft, Nat.shiftLeft_eq]

theorem rotl32_eq_rotateLeft (x : Word) {n : Nat} (hn : n < 32) : rotl32 x n = x.rotateLeft n := by
  rw [BitVec.rotateLeft_def, Nat.mod_eq_of_lt hn, rotl32, shl32, shr32]

/-- A rotation carries bit `k` to bit `k + n`, counted around the word (R13). -/
theorem rotl32_getLsbD (x : Word) {n k : Nat} (hn : n < 32) (hk : k < 32) :
    (rotl32 x n).getLsbD ((k + n) % 32) = x.getLsbD k := by
  rw [rotl32_eq_rotateLeft x hn, BitVec.getLsbD_rotateLeft, Nat.mod_eq_of_lt hn]
  by_cases h : k + n < 32
  · have hbelow : ¬ k + n < n := by omega
    simp [Nat.mod_eq_of_lt h, h, hbelow]
  · have hwrap : (k + n) % 32 = k + n - 32 := by omega
    have hbelow : k + n - 32 < n := by omega
    have hback : 32 - n + (k + n - 32) = k := by omega
    simp [hwrap, hbelow, hback]

theorem signed32_of_bit31 {v : Word} (h : v.getLsbD 31 = true) :
    signed32 v = (v.toNat : Int) - 2 ^ 32 := if_pos h

/-- Settles O1: each primitive's own lemma. -/
theorem primitivesAreModularArithmetic : Obligations.PrimitivesAreModularArithmetic := by
  intro x y
  refine ⟨add32_toNat x y, mul32_toNat x y, mul32_eq_ofInt_signed32 x y, ?_, signed32_nonneg,
    signed32_of_bit31⟩
  intro n _ hn
  exact ⟨shr32_toNat x n, shl32_toNat x n, rfl, fun _ hk => rotl32_getLsbD x hn hk⟩

/-! ### Every command is answered, whatever the host presents after it -/

/-- Every command has a next state (R145: an error is an answer too). -/
theorem exec_reaches (i : Instr) (s : State) : ∃ t, exec i s = .next t := by
  cases i with
  | hinit | clr | plda | pldb | pldc | pldd => exact ⟨_, rfl⟩
  | habs c => obtain ⟨_, _, h⟩ | ⟨_, h⟩ := execHabs_cases c s <;> exact ⟨_, h⟩
  | hdraw => obtain ⟨_, _, h⟩ | ⟨_, h⟩ := execHdraw_cases s <;> exact ⟨_, h⟩
  | pseed => obtain ⟨_, _, h⟩ | ⟨_, h⟩ := execPseed_cases s <;> exact ⟨_, h⟩
  | pstep => obtain ⟨_, h⟩ | ⟨_, h⟩ := execPstep_cases s <;> exact ⟨_, h⟩
  | gen arg => obtain ⟨_, _, h⟩ | ⟨_, _, h⟩ | ⟨_, h⟩ := execGen_cases arg s <;> exact ⟨_, h⟩

/-- An answer with another list standing at the host's side of its state. -/
def presentAfter (l : List HostEvent) :
    Host.Outcome State Fault Refusal → Host.Outcome State Fault Refusal
  | .next t => .next { t with input := l }
  | .fault r => .fault r
  | .refused r => .refused r

/-- No command reads or writes what the host presents after it (R16, R48). -/
theorem exec_of_input (i : Instr) (s : State) (l : List HostEvent) :
    exec i { s with input := l } = presentAfter l (exec i s) := by
  symm
  cases i with
  | hinit | clr | plda | pldb | pldc | pldd => rfl
  | habs => exact apply_ite (presentAfter l) (absorbReady s = true) _ _
  | hdraw | pseed => exact apply_ite (presentAfter l) (drawReady s = true) _ _
  | pstep => exact apply_ite (presentAfter l) (prngReady s = true) _ _
  | gen arg =>
    refine (apply_ite (presentAfter l) (signed32 arg < 0) _ _).trans (if_congr Iff.rfl rfl ?_)
    exact apply_ite (presentAfter l) (prngReady s = true) _ _

theorem exec_of_input_next {i : Instr} {s t : State} (h : exec i s = .next t)
    (l : List HostEvent) : exec i { s with input := l } = .next { t with input := l } := by
  rw [exec_of_input, h, presentAfter]

/-- A command leaves what the host presents after it. -/
theorem exec_input {i : Instr} {s t : State} (h : exec i s = .next t) : t.input = s.input := by
  have ht : t = { t with input := s.input } :=
    Host.Outcome.next.inj (h.symm.trans (exec_of_input_next h s.input))
  rw [ht]

/-! ### One step (R16, R48) -/

theorem runWord_of_decode {w : CommandWord} {i : Instr} (h : decode w = .ok i) (s : State) :
    runWord w s = exec i s := by
  simp [runWord, h]

theorem runWord_of_illegal {w : CommandWord} {e : Illegal} (h : decode w = .error e) (s : State) :
    runWord w s = raise .illegal s := by
  simp [runWord, h]

theorem runWord_reaches (w : CommandWord) (s : State) : ∃ t, runWord w s = .next t := by
  cases h : decode w with
  | ok i => rw [runWord_of_decode h]; exact exec_reaches i s
  | error e => exact ⟨_, runWord_of_illegal h s⟩

theorem step_of_idle {s : State} (h : s.input = []) : step s = .next s := by
  simp [step, h]

theorem step_of_presented {s : State} {e : HostEvent} {rest : List HostEvent}
    (h : s.input = e :: rest) : step s = runHostEvent e { s with input := rest } := by
  simp [step, h]

/-- Settles O9: an idle step, a reset, an illegal word and every command have a next state. -/
theorem everyStepReachesAState : Obligations.EveryStepReachesAState := by
  intro s
  cases h : s.input with
  | nil => exact ⟨s, step_of_idle h⟩
  | cons e rest =>
    rw [step_of_presented h]
    cases e with
    | command w => exact runWord_reaches w _
    | reset => exact ⟨_, rfl⟩

/-- Settles O7: a step takes the first word presented, and runs what it decodes to. -/
theorem stepExecutesTheDecodedWord : Obligations.StepExecutesTheDecodedWord := by
  intro s w rest i hs hw
  exact (step_of_presented hs).trans (runWord_of_decode hw _)

/-- Settles O10, by induction on the commands: the first step runs the first command on a state
whose list still holds the others, and the command's meaning does not see them. -/
theorem stepsAreTheFoldOfExec : Obligations.StepsAreTheFoldOfExec := by
  intro is rest
  induction is with
  | nil =>
    intro s hs
    obtain rfl : s.input = rest := hs
    rfl
  | cons i is ih =>
    intro s hs
    obtain ⟨t, ht⟩ := exec_reaches i { s with input := presented is ++ rest }
    have hstep : step s = .next t :=
      (stepExecutesTheDecodedWord s _ _ i hs (decode_encode i)).trans ht
    have hexec : exec i { s with input := rest } = .next { t with input := rest } :=
      exec_of_input_next ht rest
    simpa only [List.length_cons, stepAll, hstep, execAll, hexec] using ih t (exec_input ht)

end Sys2Proof.Machine
end

section
/-! PROOFS. The statements of the state (10_state.md): what reset and `CLR` leave (R34), and that no
step depends on a data register whose valid bit is 0 (R23, R25). -/

namespace Sys2Proof.Machine

open Sys2Proof.Safety

/-! ### Reset and `CLR` -/

/-- Settles O26: `hrem` is 0 and no port event stands at reset. -/
theorem resetMeetsInv : Obligations.ResetMeetsInv :=
  ⟨fun _ => rfl, rfl⟩

/-- Where no valid bit is set, only the valid bits and `hrem` count (R23, R25). -/
theorem sameRegisters_of_nothing_valid {s t : State} (hvs : s.hvalid = false)
    (hvt : t.hvalid = false) (hrem : s.hrem = t.hrem) (hps : s.pvalid = 0b0000#4)
    (hpt : t.pvalid = 0b0000#4) : SameRegisters s t := by
  simp [SameRegisters, hvs, hvt, hrem, hps, hpt]

/-- Settles O27: everything given up is what reset leaves, and the response is no register. -/
theorem resetAndClrLeaveNothingValid : Obligations.ResetAndClrLeaveNothingValid :=
  ⟨rfl, rfl, rfl, fun _ => ⟨_, rfl, sameRegisters_of_nothing_valid rfl rfl rfl rfl rfl⟩⟩

/-! ### Each update of the state keeps two states indistinguishable -/

theorem pushEvents_sameVisible {s t : State} (h : SameVisible s t) (es : List PortEvent) :
    SameVisible (pushEvents es s) (pushEvents es t) := by
  obtain ⟨hregs, hin, hev⟩ := h
  exact ⟨hregs, hin, congrArg (· ++ es) hev⟩

theorem setInput_sameVisible {s t : State} (h : SameVisible s t) (l : List HostEvent) :
    SameVisible { s with input := l } { t with input := l } := by
  obtain ⟨hregs, -, hev⟩ := h
  exact ⟨hregs, rfl, hev⟩

theorem setHash_sameVisible {s t : State} (h : SameVisible s t) {x y r q : Word} {v w : Bool}
    (hx : x = y) (hr : r = q) (hv : v = w) :
    SameVisible { s with h := x, hrem := r, hvalid := v }
      { t with h := y, hrem := q, hvalid := w } := by
  obtain ⟨⟨-, -, hp, -, hgen⟩, hin, hev⟩ := h
  exact ⟨⟨hv, hr, hp, fun _ => hx, hgen⟩, hin, hev⟩

/-- New generator registers need to agree only where the new `pvalid` says they are valid. -/
theorem setGenerator_sameVisible {s t : State} (h : SameVisible s t)
    {a b c d a' b' c' d' : Word} {v w : BitVec 4} (hv : v = w)
    (ha : v.getLsbD 0 = true → a = a') (hb : v.getLsbD 1 = true → b = b')
    (hc : v.getLsbD 2 = true → c = c') (hd : v.getLsbD 3 = true → d = d') :
    SameVisible { s with a := a, b := b, c := c, d := d, pvalid := v }
      { t with a := a', b := b', c := c', d := d', pvalid := w } := by
  obtain ⟨⟨hhv, hrem, -, hh, -⟩, hin, hev⟩ := h
  exact ⟨⟨hhv, hrem, hv, hh, ha, hb, hc, hd⟩, hin, hev⟩

/-- The hash given up holds a free value, which its valid bit hides (R120). -/
theorem handOver_sameVisible {s t : State} (h : SameVisible s t) (p : Prng) :
    SameVisible (handOver p s) (handOver p t) := by
  obtain ⟨-, hin, hev⟩ := h
  exact ⟨by simp [SameRegisters], hin, hev⟩

theorem forgetPrng_sameVisible {s t : State} (h : SameVisible s t) :
    SameVisible (forgetPrng s) (forgetPrng t) := by
  obtain ⟨⟨hhv, hrem, -, hh, -⟩, hin, hev⟩ := h
  exact ⟨by simpa [SameRegisters] using ⟨hhv, hrem, hh⟩, hin, hev⟩

theorem forgetAll_sameVisible {s t : State} (h : SameVisible s t) :
    SameVisible (forgetAll s) (forgetAll t) := by
  obtain ⟨-, hin, hev⟩ := h
  exact ⟨sameRegisters_of_nothing_valid rfl rfl rfl rfl rfl, hin, hev⟩

/-! ### What a command reads agrees in two indistinguishable states -/

theorem absorbReady_congr {s t : State} (h : SameVisible s t) : absorbReady s = absorbReady t := by
  obtain ⟨⟨hhv, hrem, -⟩, -⟩ := h
  rw [absorbReady, absorbReady, hhv, hrem]

theorem drawReady_congr {s t : State} (h : SameVisible s t) : drawReady s = drawReady t := by
  obtain ⟨⟨hhv, hrem, -⟩, -⟩ := h
  rw [drawReady, drawReady, hhv, hrem]

theorem prngReady_congr {s t : State} (h : SameVisible s t) : prngReady s = prngReady t := by
  obtain ⟨⟨-, -, hp, -⟩, -⟩ := h
  rw [prngReady, prngReady, hp]

theorem h_congr {s t : State} (h : SameVisible s t) (hv : s.hvalid = true) : s.h = t.h := by
  obtain ⟨⟨-, -, -, hh, -⟩, -⟩ := h
  exact hh hv

/-- A fully seeded generator has all four registers valid (R25). -/
theorem prngOf_congr {s t : State} (h : SameVisible s t) (hready : prngReady s = true) :
    prngOf s = prngOf t := by
  obtain ⟨⟨-, -, -, -, ha, hb, hc, hd⟩, -⟩ := h
  rw [(prngReady_iff s).mp hready] at ha hb hc hd
  rw [prngOf, prngOf, ha rfl, hb rfl, hc rfl, hd rfl]

/-- A load sets the valid bit of its own register only (R104 to R107). -/
theorem getLsbD_of_setValid {k j : Nat} {v : BitVec 4} (hjk : j ≠ k)
    (hj : (setValid k v).getLsbD j = true) : v.getLsbD j = true := by
  have hbit : (1#4 <<< k).getLsbD j = false := by
    simp
    omega
  rwa [setValid, BitVec.getLsbD_or, hbit, Bool.or_false] at hj

/-! ### Answers that cannot be told apart -/

/-- Both outcomes are next states, and nothing outside can tell them apart. -/
def SameAnswer (o p : Host.Outcome State Fault Refusal) : Prop :=
  ∃ s t, o = .next s ∧ p = .next t ∧ SameVisible s t

theorem respondOk_sameAnswer {s t : State} (h : SameVisible s t) {x y : Word} (hxy : x = y) :
    SameAnswer (respondOk x s) (respondOk y t) :=
  hxy ▸ ⟨_, _, rfl, rfl, pushEvents_sameVisible h _⟩

theorem respondAfter_sameAnswer {s t : State} (h : SameVisible s t) {es fs : List PortEvent}
    (hes : es = fs) (x : Word) : SameAnswer (respondAfter es x s) (respondAfter fs x t) :=
  hes ▸ ⟨_, _, rfl, rfl, pushEvents_sameVisible h _⟩

theorem raise_sameAnswer {s t : State} (h : SameVisible s t) (code : RspCode) :
    SameAnswer (raise code s) (raise code t) :=
  ⟨_, _, rfl, rfl, pushEvents_sameVisible h _⟩

/-- A command that both states admit or both turn away (R143) need only be compared where it is
admitted. -/
theorem admitted_sameAnswer {s t : State} (h : SameVisible s t) {b c : Bool}
    {o p : Host.Outcome State Fault Refusal} (hbc : b = c)
    (hop : b = true → SameAnswer o p) :
    SameAnswer (if b then o else raise .sequence s) (if c then p else raise .sequence t) := by
  subst hbc
  cases b with
  | true => exact hop rfl
  | false => exact raise_sameAnswer h .sequence

theorem execHabs_sameAnswer {s t : State} (h : SameVisible s t) (c : CodeUnit) :
    SameAnswer (execHabs c s) (execHabs c t) := by
  refine admitted_sameAnswer h (absorbReady_congr h) fun hready => ?_
  have hh : s.h = t.h := h_congr h ((absorbReady_iff s).mp hready).1
  have ⟨⟨hhv, hrem, _⟩, _⟩ := h
  exact respondOk_sameAnswer
    (setHash_sameVisible h (congrArg (hashAbsorb · c) hh) (congrArg (· - 1#32) hrem) hhv) rfl

theorem execHdraw_sameAnswer {s t : State} (h : SameVisible s t) :
    SameAnswer (execHdraw s) (execHdraw t) := by
  refine admitted_sameAnswer h (drawReady_congr h) fun hready => ?_
  have hdraw : hashFinal s.h = hashFinal t.h :=
    congrArg hashFinal (h_congr h ((drawReady_iff s).mp hready).1)
  have ⟨⟨hhv, hrem, _⟩, _⟩ := h
  exact respondOk_sameAnswer (setHash_sameVisible h hdraw hrem hhv) hdraw

theorem execPseed_sameAnswer {s t : State} (h : SameVisible s t) :
    SameAnswer (execPseed s) (execPseed t) := by
  refine admitted_sameAnswer h (drawReady_congr h) fun hready => ?_
  rw [h_congr h ((drawReady_iff s).mp hready).1]
  exact respondOk_sameAnswer (handOver_sameVisible h _) rfl

theorem execPstep_sameAnswer {s t : State} (h : SameVisible s t) :
    SameAnswer (execPstep s) (execPstep t) := by
  refine admitted_sameAnswer h (prngReady_congr h) fun hready => ?_
  rw [prngOf_congr h hready]
  have ⟨⟨_, _, hp, _⟩, _⟩ := h
  exact respondOk_sameAnswer
    (setGenerator_sameVisible h hp (fun _ => rfl) (fun _ => rfl) (fun _ => rfl) fun _ => rfl) rfl

theorem execGen_sameAnswer {s t : State} (h : SameVisible s t) (arg : Word) :
    SameAnswer (execGen arg s) (execGen arg t) := by
  by_cases hneg : signed32 arg < 0
  · simpa only [execGen, if_pos hneg] using raise_sameAnswer h .invalidArgument
  · simp only [execGen, if_neg hneg]
    refine admitted_sameAnswer h (prngReady_congr h) fun hready => ?_
    exact respondAfter_sameAnswer (forgetPrng_sameVisible h)
      (congrArg (fun p => streamFrom 0 (genBytes _ p)) (prngOf_congr h hready)) _

/-- No command tells two indistinguishable states apart: what it reads is admitted only while it is
valid, and what it leaves unspecified it makes invalid. -/
theorem exec_sameAnswer {s t : State} (h : SameVisible s t) (i : Instr) :
    SameAnswer (exec i s) (exec i t) := by
  have ⟨⟨_, _, hp, _, ha, hb, hc, hd⟩, _⟩ := h
  have kept {k j : Nat} {x y : Word} (hjk : j ≠ k) (hj : s.pvalid.getLsbD j = true → x = y) :
      (setValid k s.pvalid).getLsbD j = true → x = y := hj ∘ getLsbD_of_setValid hjk
  have hset (k : Nat) : setValid k s.pvalid = setValid k t.pvalid := congrArg (setValid k) hp
  cases i with
  | hinit len => exact respondOk_sameAnswer (setHash_sameVisible h rfl rfl rfl) rfl
  | habs c => exact execHabs_sameAnswer h c
  | hdraw => exact execHdraw_sameAnswer h
  | pseed => exact execPseed_sameAnswer h
  | pstep => exact execPstep_sameAnswer h
  | gen arg => exact execGen_sameAnswer h arg
  | clr => exact respondOk_sameAnswer (forgetAll_sameVisible h) rfl
  | plda w =>
    exact respondOk_sameAnswer (setGenerator_sameVisible h (hset 0) (fun _ => rfl)
      (kept (by decide) hb) (kept (by decide) hc) (kept (by decide) hd)) rfl
  | pldb w =>
    exact respondOk_sameAnswer (setGenerator_sameVisible h (hset 1) (kept (by decide) ha)
      (fun _ => rfl) (kept (by decide) hc) (kept (by decide) hd)) rfl
  | pldc w =>
    exact respondOk_sameAnswer (setGenerator_sameVisible h (hset 2) (kept (by decide) ha)
      (kept (by decide) hb) (fun _ => rfl) (kept (by decide) hd)) rfl
  | pldd w =>
    exact respondOk_sameAnswer (setGenerator_sameVisible h (hset 3) (kept (by decide) ha)
      (kept (by decide) hb) (kept (by decide) hc) (fun _ => rfl)) rfl

theorem runWord_sameAnswer {s t : State} (h : SameVisible s t) (w : CommandWord) :
    SameAnswer (runWord w s) (runWord w t) := by
  cases hw : decode w with
  | ok i => rw [runWord_of_decode hw, runWord_of_decode hw]; exact exec_sameAnswer h i
  | error e => rw [runWord_of_illegal hw, runWord_of_illegal hw]; exact raise_sameAnswer h _

/-- Settles O28: the two states take the same host event, and neither a reset nor a command word
tells them apart. -/
theorem unspecifiedRegistersAreUnobservable : Obligations.UnspecifiedRegistersAreUnobservable := by
  intro s t h
  have ⟨_, hinput, _⟩ := h
  cases hs : s.input with
  | nil => exact ⟨s, t, step_of_idle hs, step_of_idle (hinput ▸ hs), h⟩
  | cons e rest =>
    rw [step_of_presented hs, step_of_presented (hinput ▸ hs)]
    have hrest := setInput_sameVisible h rest
    cases e with
    | command w => exact runWord_sameAnswer hrest w
    | reset => exact ⟨_, _, rfl, rfl, forgetAll_sameVisible hrest⟩

end Sys2Proof.Machine
end

section
/-! PROOFS. The statements of the memory and the streams (20_memory.md): what every step keeps of
the code units owed (R26) and of the answers on the ports (R42, R67, R68), and what every clock edge
keeps of the events carried and pending (R69). Both rest on one fact: a command word puts exactly
one whole answer on the ports. -/

namespace Sys2Proof.Machine

open Sys2Proof.Safety

/-! ### One whole answer -/

/-- What one command word puts on the ports (R42, R67, R68): a response alone, whose data is 0
unless it is `OK`, or the bytes of a generation and the response with their number. -/
inductive IsAnswer : List PortEvent → Prop
  | success (data : Word) : IsAnswer [.response ⟨.ok, data⟩]
  | error (code : RspCode) : IsAnswer [.response ⟨code, 0#32⟩]
  | generation (vs : List Byte) (n : Word) (hlen : vs.length = n.toNat) (hn : n.toNat < 2 ^ 31) :
      IsAnswer (streamFrom 0 vs ++ [.response ⟨.ok, n⟩])

/-- An answer is bytes and then its one response (R67). -/
theorem IsAnswer.bytes_then_response {es : List PortEvent} (h : IsAnswer es) :
    ∃ bs r, es = bs ++ [.response r] ∧ ∀ e ∈ bs, ∃ b, e = .byte b := by
  cases h with
  | success | error => exact ⟨[], _, rfl, by simp⟩
  | generation => exact ⟨_, _, rfl, fun _ => mem_streamFrom⟩

/-! ### Reading whole answers off the ports -/

/-- After whole answers the reading starts afresh. -/
theorem wholeAnswers_append {closed : Bool} {k : Nat} {es : List PortEvent}
    (h : wholeAnswers closed k es = true) (fs : List PortEvent) :
    wholeAnswers closed k (es ++ fs) = wholeAnswers false 0 fs := by
  fun_induction wholeAnswers closed k es with
  | case1 closed k =>
    obtain ⟨rfl, rfl⟩ : closed = false ∧ k = 0 := by simpa using h
    rfl
  | case2 closed k b rest ih | case3 k r rest ih | case4 k r rest ih =>
    rw [Bool.and_eq_true] at h
    obtain ⟨hhead, htail⟩ := h
    rw [List.cons_append, wholeAnswers, hhead, Bool.true_and, ih htail]

/-- A byte is read where its index is due, which needs an index of 31 bits (R42). -/
theorem wholeAnswers_byte {k : Nat} (hk : k < 2 ^ 31) (v : Byte) (last : Bool)
    (es : List PortEvent) :
    wholeAnswers false k (.byte ⟨BitVec.ofNat 31 k, v, last⟩ :: es) =
      wholeAnswers last (k + 1) es := by
  have hindex : (BitVec.ofNat 31 k).toNat = k := by
    rw [BitVec.toNat_ofNat, Nat.mod_eq_of_lt hk]
  simp only [wholeAnswers, hindex, beq_self_eq_true, Bool.not_false, Bool.true_and]

/-- The bytes of a stream are read in order, and the last one closes them. -/
theorem wholeAnswers_streamFrom {k : Nat} {v : Byte} {vs : List Byte}
    (h : k + vs.length < 2 ^ 31) (es : List PortEvent) :
    wholeAnswers false k (streamFrom k (v :: vs) ++ es) =
      wholeAnswers true (k + vs.length + 1) es := by
  induction vs generalizing k v with
  | nil => exact wholeAnswers_byte h v true es
  | cons w vs ih =>
    rw [List.length_cons] at h
    have hsum : k + (vs.length + 1) + 1 = k + 1 + vs.length + 1 := by omega
    rw [List.length_cons, hsum, ← ih (v := w) (by omega)]
    exact wholeAnswers_byte (by omega) v false _

theorem IsAnswer.isWhole {es : List PortEvent} (h : IsAnswer es) :
    wholeAnswers false 0 es = true := by
  cases h with
  | success | error => simp [wholeAnswers]
  | generation vs n hlen hn =>
    cases vs with
    | nil => rfl
    | cons v vs =>
      rw [List.length_cons] at hlen
      rw [wholeAnswers_streamFrom (by omega)]
      simp [wholeAnswers, hlen]

/-! ### Every command word puts one answer on the ports -/

/-- No code unit is owed while there is no hash (R26). -/
def NoneOwedWithoutHash (s : State) : Prop := s.hvalid = false → s.hrem = 0#32

theorem noneOwedWithoutHash_of_hvalid {s : State} (h : s.hvalid = true) : NoneOwedWithoutHash s :=
  fun hfalse => absurd (h.symm.trans hfalse) (by decide)

/-- The outcome is a next state with one answer more on the ports, and owes no code unit without a
hash if the state before it did not. -/
def Answers (s : State) (o : Host.Outcome State Fault Refusal) : Prop :=
  ∃ t es, o = .next t ∧ t.events = s.events ++ es ∧ IsAnswer es ∧
    (NoneOwedWithoutHash s → NoneOwedWithoutHash t)

/-- A count that is not negative has 31 bits (R14). -/
theorem toNat_lt_of_bit31 {n : Word} (h : n.getLsbD 31 = false) : n.toNat < 2 ^ 31 := by
  have hmsb : n.msb = false := (BitVec.msb_eq_getLsbD_last n).trans h
  have := BitVec.msb_eq_false_iff_two_mul_lt.mp hmsb
  omega

theorem exec_answers (i : Instr) (s : State) : Answers s (exec i s) := by
  cases i with
  | hinit => exact ⟨_, _, rfl, rfl, .success _, fun _ => noneOwedWithoutHash_of_hvalid rfl⟩
  | clr => exact ⟨_, _, rfl, rfl, .success _, fun _ _ => rfl⟩
  | plda | pldb | pldc | pldd => exact ⟨_, _, rfl, rfl, .success _, id⟩
  | habs c =>
    obtain ⟨hv, -, h⟩ | ⟨-, h⟩ := execHabs_cases c s
    · exact ⟨_, _, h, rfl, .success _, fun _ => noneOwedWithoutHash_of_hvalid hv⟩
    · exact ⟨_, _, h, rfl, .error _, id⟩
  | hdraw =>
    obtain ⟨-, -, h⟩ | ⟨-, h⟩ := execHdraw_cases s
    · exact ⟨_, _, h, rfl, .success _, id⟩
    · exact ⟨_, _, h, rfl, .error _, id⟩
  | pseed =>
    obtain ⟨-, -, h⟩ | ⟨-, h⟩ := execPseed_cases s
    · exact ⟨_, _, h, rfl, .success _, fun _ _ => rfl⟩
    · exact ⟨_, _, h, rfl, .error _, id⟩
  | pstep =>
    obtain ⟨-, h⟩ | ⟨-, h⟩ := execPstep_cases s
    · exact ⟨_, _, h, rfl, .success _, id⟩
    · exact ⟨_, _, h, rfl, .error _, id⟩
  | gen arg =>
    obtain ⟨hbit, -, h⟩ | ⟨-, -, h⟩ | ⟨-, h⟩ := execGen_cases arg s
    · exact ⟨_, _, h, rfl, .generation _ _ (genBytes_length _ _) (toNat_lt_of_bit31 hbit), id⟩
    · exact ⟨_, _, h, rfl, .error _, id⟩
    · exact ⟨_, _, h, rfl, .error _, id⟩

theorem runWord_answers (w : CommandWord) (s : State) : Answers s (runWord w s) := by
  cases hw : decode w with
  | ok i => rw [runWord_of_decode hw]; exact exec_answers i s
  | error e => exact ⟨_, _, runWord_of_illegal hw s, rfl, .error _, id⟩

/-! ### The invariant of the command level -/

theorem runWord_keeps_inv {w : CommandWord} {s t : State} (hs : Inv s)
    (h : runWord w s = .next t) : Inv t := by
  obtain ⟨howed, hwhole⟩ := hs
  obtain ⟨t', es, ht', hevents, hanswer, hkeeps⟩ := runWord_answers w s
  obtain rfl : t = t' := Host.Outcome.next.inj (h.symm.trans ht')
  refine ⟨hkeeps howed, ?_⟩
  rw [hevents, wholeAnswers_append hwhole, hanswer.isWhole]

/-- A reset gives up the hash with what it is owed, and leaves the ports as they are (R170). -/
theorem resetBlock_keeps_inv {s : State} (hs : Inv s) : Inv (resetBlock s) :=
  ⟨fun _ => rfl, hs.2⟩

/-- Settles O25: an idle step changes nothing, and a reset and a command word keep the invariant,
which does not look at what the host presents. -/
theorem stepKeepsInv : Obligations.StepKeepsInv := by
  intro s t hs h
  cases hin : s.input with
  | nil => exact Host.Outcome.next.inj ((step_of_idle hin).symm.trans h) ▸ hs
  | cons e rest =>
    rw [step_of_presented hin] at h
    have hrest : Inv { s with input := rest } := hs
    cases e with
    | command w => exact runWord_keeps_inv hrest h
    | reset => exact Host.Outcome.next.inj h ▸ resetBlock_keeps_inv hrest

/-! ### The invariant of the port layer -/

theorem blockAfter_of_next {w : CommandWord} {s t : State} (h : runWord w s = .next t) :
    blockAfter w s = t := by
  rw [blockAfter, h]

/-- Taking a command makes exactly its answer pending. -/
theorem takeCommand_keeps_portInv {p : PortState} (hp : PortInv p) (hidle : p.pending = [])
    (i : PortIn) : PortInv (takeCommand p i) := by
  cases hi : i.cmdValid with
  | false => simpa [takeCommand, hi] using hp
  | true =>
    obtain ⟨t, es, ht, hevents, hanswer, -⟩ := runWord_answers (cmdWord i) p.block
    obtain ⟨hcarried, -⟩ := hp
    rw [hidle, List.append_nil] at hcarried
    have hpending : t.events.drop p.block.events.length = es := by
      rw [hevents, List.drop_left]
    simp only [takeCommand, hi, if_true, blockAfter_of_next ht, hpending]
    exact ⟨by rw [hcarried, hevents], fun _ => hanswer.bytes_then_response⟩

/-- A transfer moves the first pending event to those carried. -/
theorem transferNext_keeps_portInv {p : PortState} (hp : PortInv p) {e : PortEvent}
    {rest : List PortEvent} (hpending : p.pending = e :: rest) (i : PortIn) :
    PortInv (transferNext p e rest i) := by
  have ⟨hcarried, hform⟩ := hp
  unfold transferNext
  split_ifs
  · refine ⟨by simpa [hpending] using hcarried, fun hrest => ?_⟩
    obtain ⟨bs, r, heq, hbytes⟩ := hform (by simp [hpending])
    rw [hpending] at heq
    cases bs with
    | nil => exact absurd (List.cons.inj heq).2 hrest
    | cons b bs =>
      exact ⟨bs, r, (List.cons.inj heq).2, fun e he => hbytes e (List.mem_cons_of_mem b he)⟩
  · exact hp
  · exact hp

/-- A reset leaves the block's events at those carried, and none pending (R170). -/
theorem portAbandon_portInv (p : PortState) : PortInv (portAbandon p) :=
  ⟨List.append_nil p.sent, fun h => absurd rfl h⟩

/-- Settles O45: the edge is a reset, a command taken or an event transferred; the count of cycles
is not looked at. -/
theorem clockEdgeKeepsPortInv : Obligations.ClockEdgeKeepsPortInv := by
  intro p i hp
  have hcount : PortInv { p with cycles := p.cycles + 1 } := hp
  unfold clockEdge
  split_ifs
  · exact portAbandon_portInv _
  · split
    next hidle => exact takeCommand_keeps_portInv hcount hidle i
    next hpending => exact transferNext_keeps_portInv hcount hpending i

end Sys2Proof.Machine
end

section
/-! PROOFS. The statements of the encoding (30_encoding.md): a command and its word name each other
(R60 to R65), each word is answered once, with the data its command's rule gives (R67, R68), and
what a clock cycle takes and transfers at the ports (R69). -/

namespace Sys2Proof

/-! ### A word is its opcode and its operand (R60) -/

theorem wordOf_opOf_argOf (w : CommandWord) : wordOf (opOf w) (argOf w) = w := by
  apply BitVec.eq_of_getLsbD_eq
  intro k hk
  refine (BitVec.getLsbD_append ..).trans ?_
  by_cases h : k < 32
  · simp [argOf, h]
  · have hop : k - 32 < 4 := by omega
    have hback : 32 + (k - 32) = k := by omega
    simp [opOf, h, hop, hback]

theorem eq_wordOf_iff {w : CommandWord} {op : BitVec 4} {arg : Word} :
    w = wordOf op arg ↔ opOf w = op ∧ argOf w = arg := by
  constructor
  · rintro rfl
    exact ⟨opOf_wordOf op arg, argOf_wordOf op arg⟩
  · rintro ⟨rfl, rfl⟩
    exact (wordOf_opOf_argOf w).symm

theorem wordOf_of_fields {w : CommandWord} {op : BitVec 4} {arg : Word}
    (hop : (opOf w).toNat = op.toNat) (harg : argOf w = arg) : wordOf op arg = w :=
  (eq_wordOf_iff.mpr ⟨BitVec.eq_of_toNat_eq hop, harg⟩).symm

/-- A word operand whose upper half is zero is its lower half (R61). -/
theorem argOfCodeUnit_of_high {arg : Word} (h : arg.extractLsb' 16 16 = 0#16) :
    argOfCodeUnit (arg.extractLsb' 0 16) = arg := by
  apply BitVec.eq_of_getLsbD_eq
  intro k hk
  by_cases hlow : k < 16
  · simp [argOfCodeUnit, hk, hlow]
  · have hbit : (arg.extractLsb' 16 16).getLsbD (k - 16) = false := by rw [h]; simp
    have hin : k - 16 < 16 := by omega
    have hback : 16 + (k - 16) = k := by omega
    have harg : arg.getLsbD k = false := by simpa [hin, hback] using hbit
    simpa [argOfCodeUnit, hlow] using harg.symm

/-! ### The encoder undoes the decoder (R61, R64, R65) -/

theorem decodeNoOperand_eq_ok {i j : Instr} {arg : Word} (h : decodeNoOperand i arg = .ok j) :
    arg = 0#32 ∧ i = j := by
  unfold decodeNoOperand at h
  split_ifs at h with harg
  exact ⟨harg, Except.ok.inj h⟩

theorem decodeCodeUnit_eq_ok {j : Instr} {arg : Word} (h : decodeCodeUnit arg = .ok j) :
    ∃ c, arg = argOfCodeUnit c ∧ .habs c = j := by
  unfold decodeCodeUnit at h
  split_ifs at h with hhigh
  exact ⟨_, (argOfCodeUnit_of_high hhigh).symm, Except.ok.inj h⟩

/-- The opcode that selects a command's arm, and the operand the arm admits, are the word. -/
theorem encode_of_decode {w : CommandWord} {i : Instr} (h : decode w = .ok i) : encode i = w := by
  unfold decode at h
  split at h
  case h_1 hop | h_6 hop | h_8 hop | h_9 hop | h_10 hop | h_11 hop =>
    obtain rfl := Except.ok.inj h
    exact wordOf_of_fields hop rfl
  case h_2 hop =>
    obtain ⟨c, harg, rfl⟩ := decodeCodeUnit_eq_ok h
    exact wordOf_of_fields hop harg
  case h_3 hop | h_4 hop | h_5 hop | h_7 hop =>
    obtain ⟨harg, rfl⟩ := decodeNoOperand_eq_ok h
    exact wordOf_of_fields hop harg
  case h_12 => cases h

theorem decode_eq_ok_iff {w : CommandWord} {i : Instr} : decode w = .ok i ↔ w = encode i := by
  constructor
  · exact fun h => (encode_of_decode h).symm
  · rintro rfl
    exact decode_encode i

/-- Settles O2: the decoder finds the opcode and the operand that the encoder wrote. -/
theorem decodeOfEncodeIsTheCommand : Obligations.DecodeOfEncodeIsTheCommand :=
  decode_encode

/-- Settles O3: an arm of the decoder fixes the opcode and every operand bit it does not read. -/
theorem encodeOfDecodeIsTheWord : Obligations.EncodeOfDecodeIsTheWord :=
  fun _ _ => encode_of_decode

/-! ### The rows of the opcode map (R64) -/

/-- A mask that covers the opcode leaves it as it is, and masks the operand. -/
theorem and_opcode_mask (w : CommandWord) (k : Word) :
    w &&& wordOf 0xF#4 k = wordOf (opOf w) (argOf w &&& k) := by
  have hop : opOf w &&& 0xF#4 = opOf w := BitVec.and_allOnes
  have hw := wordOf_and (opOf w) 0xF#4 (argOf w) k
  rwa [wordOf_opOf_argOf, hop] at hw

theorem and_opcode_mask_eq_iff {w : CommandWord} {op : BitVec 4} {k arg : Word} :
    w &&& wordOf 0xF#4 k = wordOf op arg ↔ opOf w = op ∧ argOf w &&& k = arg := by
  rw [and_opcode_mask, eq_wordOf_iff, opOf_wordOf, argOf_wordOf]

/-- A row of format W: the mask is the opcode. -/
theorem matches_word_row (w : CommandWord) (op : BitVec 4) :
    w &&& wordOf 0xF#4 0#32 = wordOf op 0#32 ↔ w = wordOf op (argOf w) := by
  rw [and_opcode_mask_eq_iff, eq_wordOf_iff]
  simp

/-- The upper half of an operand is zero under its mask exactly when the operand is its lower half
(R61). -/
theorem high_and_eq_zero_iff (arg : Word) :
    arg &&& 0xFFFF0000#32 = 0#32 ↔ arg = argOfCodeUnit (arg.extractLsb' 0 16) := by
  constructor
  · intro h
    refine (argOfCodeUnit_of_high ?_).symm
    have hmask : (0xFFFF0000#32).extractLsb' 16 16 = BitVec.allOnes 16 := by decide
    have hhigh := congrArg (BitVec.extractLsb' 16 16) h
    rwa [BitVec.extractLsb'_and, hmask, BitVec.and_allOnes] at hhigh
  · intro h
    rw [h]
    exact argOfCodeUnit_mask _

/-- The row of format U: the mask is the opcode and the operand's upper half. -/
theorem matches_unit_row (w : CommandWord) (op : BitVec 4) :
    w &&& wordOf 0xF#4 0xFFFF0000#32 = wordOf op 0#32 ↔
      w = wordOf op (argOfCodeUnit ((argOf w).extractLsb' 0 16)) := by
  rw [and_opcode_mask_eq_iff, eq_wordOf_iff, high_and_eq_zero_iff]

/-- A row of format N: the mask is the whole word. -/
theorem matches_bare_row (w : CommandWord) (op : BitVec 4) :
    w &&& wordOf 0xF#4 0xFFFFFFFF#32 = wordOf op 0#32 ↔ w = wordOf op 0#32 := by
  have hmask : wordOf 0xF#4 0xFFFFFFFF#32 = BitVec.allOnes 36 := by decide
  rw [hmask, BitVec.and_allOnes]

theorem argOf_low (w : CommandWord) : (argOf w).extractLsb' 0 16 = w.extractLsb' 0 16 := by
  apply BitVec.eq_of_getLsbD_eq
  intro k hk
  simp [argOf, hk]

/-- A word that matches a row has the row's opcode. -/
theorem opOf_of_covers {r : OpcodeRow} (hr : r ∈ opcodeMap) {w : CommandWord}
    (h : r.covers w = true) : opOf w = opOf r.fixed := by
  have hmask : ∀ q ∈ opcodeMap, opOf q.mask = 0xF#4 := by decide
  have hfixed : w &&& r.mask = r.fixed := eq_of_beq h
  rw [← wordOf_opOf_argOf r.mask, hmask r hr, ← wordOf_opOf_argOf r.fixed] at hfixed
  exact (and_opcode_mask_eq_iff.mp hfixed).1

/-- Two rows ask for two opcodes. -/
theorem opcodeMap_pairwise_disjoint : opcodeMap.Pairwise fun r q =>
    ∀ w : CommandWord, ¬(r.covers w = true ∧ q.covers w = true) := by
  have hop : opcodeMap.Pairwise fun r q => opOf r.fixed ≠ opOf q.fixed := by decide
  refine hop.imp_of_mem fun hr hq hne w ⟨hrw, hqw⟩ => hne ?_
  exact (opOf_of_covers hr hrw).symm.trans (opOf_of_covers hq hqw)

/-- Settles O4: a row's bits under its mask are the bits that the row's command fixes in its word,
format by format; the opcode keeps the rows apart. -/
theorem wordsSpellTheRowTheyMatch : Obligations.WordsSpellTheRowTheyMatch := by
  refine ⟨fun w => ?_, opcodeMap_pairwise_disjoint⟩
  have hword (op) := matches_word_row w op
  have hunit := matches_unit_row w 0x2#4
  have hbare (op) := matches_bare_row w op
  rw [argOf_low] at hunit
  simp only [decode_eq_ok_iff]
  exact ⟨hword 0x1#4, hunit, hbare 0x3#4, hbare 0x4#4, hbare 0x5#4, hword 0x6#4, hbare 0x7#4,
    hword 0x8#4, hword 0x9#4, hword 0xA#4, hword 0xB#4⟩

end Sys2Proof

namespace Sys2Proof.Machine

/-! ### The answer of a command (R67, R68) -/

/-- The data of an `OK` response (R68), from the states before and after the command. -/
def okData (i : Instr) (s t : State) : Word :=
  match i with
  | .hdraw => t.h
  | .pstep => s.a + s.b + s.d + 1#32
  | .gen arg => arg
  | .hinit _ | .habs _ | .pseed | .clr | .plda _ | .pldb _ | .pldc _ | .pldd _ => 0#32

/-- A successful answer: bytes, which only `GEN` has, and then one `OK` response with its data. -/
def Succeeds (i : Instr) (s t : State) : Prop :=
  ∃ bytes, t.events = s.events ++ (bytes ++ [.response ⟨.ok, okData i s t⟩]) ∧
    (∀ e ∈ bytes, ∃ b, e = .byte b) ∧ (bytes ≠ [] → ∃ arg, i = .gen arg)

/-- An error is its response and nothing else (R145). -/
def Fails (s t : State) : Prop :=
  ∃ code, code ≠ .ok ∧ t = pushEvents [.response ⟨code, 0#32⟩] s

theorem succeeds_of_response {i : Instr} {s t : State}
    (h : t.events = s.events ++ [.response ⟨.ok, okData i s t⟩]) : Succeeds i s t :=
  ⟨[], h, by simp, by simp⟩

theorem fails_of_raise {code : RspCode} (hcode : code ≠ .ok) (s : State) :
    Fails s (pushEvents [.response ⟨code, 0#32⟩] s) :=
  ⟨code, hcode, rfl⟩

/-- The draw in one sum of the old registers (R68, R100). -/
theorem prngStep_draw (s : State) : (prngStep (prngOf s)).2 = s.a + s.b + s.d + 1#32 :=
  (BitVec.add_assoc (s.a + s.b) s.d 1#32).symm

/-- Every command succeeds or fails. -/
theorem exec_succeeds_or_fails (i : Instr) (s : State) :
    ∃ t, exec i s = .next t ∧ (Succeeds i s t ∨ Fails s t) := by
  have hseq := fails_of_raise (code := .sequence) (by decide) s
  cases i with
  | hinit | clr | plda | pldb | pldc | pldd => exact ⟨_, rfl, .inl (succeeds_of_response rfl)⟩
  | habs c =>
    obtain ⟨-, -, h⟩ | ⟨-, h⟩ := execHabs_cases c s
    · exact ⟨_, h, .inl (succeeds_of_response rfl)⟩
    · exact ⟨_, h, .inr hseq⟩
  | hdraw =>
    obtain ⟨-, -, h⟩ | ⟨-, h⟩ := execHdraw_cases s
    · exact ⟨_, h, .inl (succeeds_of_response rfl)⟩
    · exact ⟨_, h, .inr hseq⟩
  | pseed =>
    obtain ⟨-, -, h⟩ | ⟨-, h⟩ := execPseed_cases s
    · exact ⟨_, h, .inl (succeeds_of_response rfl)⟩
    · exact ⟨_, h, .inr hseq⟩
  | pstep =>
    obtain ⟨-, h⟩ | ⟨-, h⟩ := execPstep_cases s
    · rw [prngStep_draw] at h
      exact ⟨_, h, .inl (succeeds_of_response rfl)⟩
    · exact ⟨_, h, .inr hseq⟩
  | gen arg =>
    obtain ⟨-, -, h⟩ | ⟨-, -, h⟩ | ⟨-, h⟩ := execGen_cases arg s
    · exact ⟨_, h, .inl ⟨_, rfl, fun _ => mem_streamFrom, fun _ => ⟨arg, rfl⟩⟩⟩
    · exact ⟨_, h, .inr hseq⟩
    · exact ⟨_, h, .inr (fails_of_raise (by decide) s)⟩

/-- A word that spells no command fails, and every other word runs its command. -/
theorem runWord_succeeds_or_fails (w : CommandWord) (s : State) :
    ∃ t, runWord w s = .next t ∧ ((∃ i, decode w = .ok i ∧ Succeeds i s t) ∨ Fails s t) := by
  cases hw : decode w with
  | ok i =>
    obtain ⟨t, ht, hsucc | hfail⟩ := exec_succeeds_or_fails i s
    · exact ⟨t, (runWord_of_decode hw s).trans ht, .inl ⟨i, rfl, hsucc⟩⟩
    · exact ⟨t, (runWord_of_decode hw s).trans ht, .inr hfail⟩
  | error e =>
    exact ⟨_, runWord_of_illegal hw s, .inr (fails_of_raise (by decide) s)⟩

theorem opOf_of_decode_gen {w : CommandWord} {arg : Word} (h : decode w = .ok (.gen arg)) :
    opOf w = 0x6#4 :=
  (eq_wordOf_iff.mp (decode_eq_ok_iff.mp h)).1

/-- Settles O21: bytes come with a success only, and then the word is that of a `GEN`; a failure is
its response alone. -/
theorem everyWordIsAnsweredOnce : Obligations.EveryWordIsAnsweredOnce := by
  refine ⟨fun w s => ?_, rfl, rfl, rfl, rfl⟩
  obtain ⟨t, ht, ⟨i, hi, bytes, hevents, hbytes, hgen⟩ | ⟨code, hcode, rfl⟩⟩ :=
    runWord_succeeds_or_fails w s
  · rw [← List.append_assoc] at hevents
    refine ⟨t, bytes, _, ht, hevents, hbytes, fun hne => ⟨?_, rfl⟩, fun hne => absurd rfl hne⟩
    obtain ⟨arg, rfl⟩ := hgen hne
    exact opOf_of_decode_gen hi
  · exact ⟨_, [], _, ht, by rw [List.append_nil]; rfl, by simp, by simp, fun _ => rfl⟩

/-- Settles O23: the last event is the response of the success, so its data is the success's; the
response of a failure is not `OK`. -/
theorem okResponseCarriesTheResult : Obligations.OkResponseCarriesTheResult := by
  intro i s t data ht hlast
  obtain ⟨t', ht', h⟩ := exec_succeeds_or_fails i s
  obtain rfl : t = t' := Host.Outcome.next.inj (ht.symm.trans ht')
  obtain ⟨bytes, hevents, -, -⟩ | ⟨code, hcode, rfl⟩ := h
  · have hdata : okData i s t = data := by simpa [hevents] using hlast
    cases i <;> exact hdata.symm
  · have hok : code = .ok := by
      have hrsp : code = .ok ∧ 0#32 = data := by simpa using hlast
      exact hrsp.1
    exact absurd hok hcode

/-! ### The ports in one cycle (R69) -/

section
variable {p : PortState} {i : PortIn}

theorem portOutputs_idle (hrst : i.rst = false) (h : p.pending = []) :
    portOutputs p i = { cmdReady := true, rsp := none, out := none } := by
  simp [portOutputs, hrst, h]

theorem portOutputs_byte (hrst : i.rst = false) {b : StreamByte} {rest : List PortEvent}
    (h : p.pending = .byte b :: rest) :
    portOutputs p i =
      { cmdReady := false, rsp := none, out := if p.wait = 0 then some b else none } := by
  simp [portOutputs, hrst, h]

theorem portOutputs_response (hrst : i.rst = false) {r : Response} {rest : List PortEvent}
    (h : p.pending = .response r :: rest) :
    portOutputs p i =
      { cmdReady := false, rsp := if p.wait = 0 then some r else none, out := none } := by
  simp [portOutputs, hrst, h]

theorem cmdReady_iff (hrst : i.rst = false) :
    (portOutputs p i).cmdReady = true ↔ p.pending = [] := by
  match h : p.pending with
  | [] => simp [portOutputs_idle hrst h]
  | .byte b :: rest => simp [portOutputs_byte hrst h]
  | .response r :: rest => simp [portOutputs_response hrst h]

theorem clockEdge_idle (hrst : i.rst = false) (h : p.pending = []) :
    clockEdge p i = takeCommand { p with cycles := p.cycles + 1 } i := by
  simp [clockEdge, hrst, h]

theorem clockEdge_busy (hrst : i.rst = false) {e : PortEvent} {rest : List PortEvent}
    (h : p.pending = e :: rest) :
    clockEdge p i = transferNext { p with cycles := p.cycles + 1 } e rest i := by
  simp [clockEdge, hrst, h]

theorem takeCommand_of_offered (h : i.cmdValid = true) :
    (takeCommand p i).block = blockAfter (cmdWord i) p.block := by
  simp [takeCommand, h]

theorem takeCommand_of_not_offered (h : i.cmdValid = false) : takeCommand p i = p := by
  simp [takeCommand, h]

theorem takeCommand_sent : (takeCommand p i).sent = p.sent := by
  unfold takeCommand
  split_ifs <;> rfl

theorem transferNext_block (e : PortEvent) (rest : List PortEvent) :
    (transferNext p e rest i).block = p.block := by
  unfold transferNext
  split_ifs <;> rfl

/-- The first pending event is transferred once its delay is over and the host can take it. -/
theorem transferNext_sent (e : PortEvent) (rest : List PortEvent) :
    (transferNext p e rest i).sent =
      p.sent ++ if p.wait = 0 ∧ canTransfer e i = true then [e] else [] := by
  unfold transferNext
  split_ifs <;> simp_all

/-- A transfer loses no event and adds none. -/
theorem transferNext_sent_pending {e : PortEvent} {rest : List PortEvent}
    (h : p.pending = e :: rest) :
    (transferNext p e rest i).sent ++ (transferNext p e rest i).pending = p.sent ++ p.pending := by
  unfold transferNext
  split_ifs <;> simp [h]

/-- A word offered to an idle block is run. -/
theorem runWord_of_taken (hrst : i.rst = false) (hidle : p.pending = [])
    (hoffered : i.cmdValid = true) :
    runWord (cmdWord i) p.block = .next (clockEdge p i).block := by
  obtain ⟨t, ht⟩ := runWord_reaches (cmdWord i) p.block
  rw [clockEdge_idle hrst hidle, takeCommand_of_offered hoffered, blockAfter_of_next ht, ht]

end

/-- Settles O42: the block is ready exactly when nothing is pending; then it runs the word offered,
or is left alone, and otherwise a transfer moves an event from those pending to those carried. -/
theorem portsTakeOneCommandAtATime : Obligations.PortsTakeOneCommandAtATime := by
  intro p i hrst
  rw [cmdReady_iff hrst]
  refine ⟨Iff.rfl, fun ⟨hoffered, hidle⟩ => runWord_of_taken hrst hidle hoffered, fun hnot => ?_⟩
  cases hpending : p.pending with
  | nil =>
    have hoffered : i.cmdValid = false := by simpa [hpending] using hnot
    rw [clockEdge_idle hrst hpending, takeCommand_of_not_offered hoffered, hpending]
    exact ⟨rfl, rfl⟩
  | cons e rest =>
    rw [clockEdge_busy hrst hpending, ← hpending]
    exact ⟨transferNext_block e rest, transferNext_sent_pending hpending⟩

/-- Settles O43: an idle block shows nothing and transfers nothing; otherwise the first pending
event is shown on its own port exactly when its delay is over. -/
theorem portsTransferWhatTheyShow : Obligations.PortsTransferWhatTheyShow := by
  intro p i hrst
  match hpending : p.pending with
  | [] =>
    rw [clockEdge_idle hrst hpending, portOutputs_idle hrst hpending, takeCommand_sent]
    simp
  | .byte b :: rest =>
    rw [clockEdge_busy hrst hpending, portOutputs_byte hrst hpending, transferNext_sent]
    by_cases hwait : p.wait = 0 <;> simp [hwait, canTransfer]
  | .response r :: rest =>
    rw [clockEdge_busy hrst hpending, portOutputs_response hrst hpending, transferNext_sent]
    by_cases hwait : p.wait = 0 <;> simp [hwait, canTransfer]

end Sys2Proof.Machine
end

section
/-! PROOFS. The statements of `string_hash_expand` (40_string_hash_expand.md): its commands `HINIT`,
`HABS` and `HDRAW` (R80 to R85), and that this sub-block and the generator leave each other alone
(R83 to R85, R104 to R108, R121). -/

namespace Sys2Proof

/-! ### Illegal spellings of a command with a narrow operand (R61, R65) -/

theorem decode_unit_word_of_high {arg : Word} (h : arg.extractLsb' 16 16 ≠ 0#16) :
    decode (wordOf 0x2#4 arg) = .error .codeUnitTooWide := by
  simp [decode, opOf_wordOf, argOf_wordOf, decodeCodeUnit, h]

theorem decode_bare_word_of_operand {op : BitVec 4} (hop : op ∈ [0x3#4, 0x4#4, 0x5#4, 0x7#4])
    {arg : Word} (h : arg ≠ 0#32) : decode (wordOf op arg) = .error .operandNotZero := by
  fin_cases hop <;> simp [decode, opOf_wordOf, argOf_wordOf, decodeNoOperand, h]

end Sys2Proof

namespace Sys2Proof.Machine

open Sys2Proof.Safety

theorem runWord_unit_word_of_high {arg : Word} (h : arg.extractLsb' 16 16 ≠ 0#16) (s : State) :
    runWord (wordOf 0x2#4 arg) s = .next (answered s .illegal 0#32) :=
  runWord_of_illegal (decode_unit_word_of_high h) s

theorem runWord_bare_word_of_operand {op : BitVec 4} (hop : op ∈ [0x3#4, 0x4#4, 0x5#4, 0x7#4])
    {arg : Word} (h : arg ≠ 0#32) (s : State) :
    runWord (wordOf op arg) s = .next (answered s .illegal 0#32) :=
  runWord_of_illegal (decode_bare_word_of_operand hop h) s

/-! ### The frames of the two sub-blocks -/

/-- The generator's registers and valid bits are as they were. -/
def SameGenerator (s t : State) : Prop :=
  t.a = s.a ∧ t.b = s.b ∧ t.c = s.c ∧ t.d = s.d ∧ t.pvalid = s.pvalid

/-- The hash's accumulator, its units owed and its valid bit are as they were. -/
def SameHash (s t : State) : Prop := t.h = s.h ∧ t.hrem = s.hrem ∧ t.hvalid = s.hvalid

theorem pushEvents_sameGenerator (es : List PortEvent) (s : State) :
    SameGenerator s (pushEvents es s) :=
  ⟨rfl, rfl, rfl, rfl, rfl⟩

theorem pushEvents_sameHash (es : List PortEvent) (s : State) : SameHash s (pushEvents es s) :=
  ⟨rfl, rfl, rfl⟩

theorem execHabs_sameGenerator (c : CodeUnit) (s : State) :
    ∃ t, execHabs c s = .next t ∧ SameGenerator s t := by
  obtain ⟨-, -, h⟩ | ⟨-, h⟩ := execHabs_cases c s
  · exact ⟨_, h, rfl, rfl, rfl, rfl, rfl⟩
  · exact ⟨_, h, pushEvents_sameGenerator _ s⟩

theorem execHdraw_sameGenerator (s : State) :
    ∃ t, execHdraw s = .next t ∧ SameGenerator s t := by
  obtain ⟨-, -, h⟩ | ⟨-, h⟩ := execHdraw_cases s
  · exact ⟨_, h, rfl, rfl, rfl, rfl, rfl⟩
  · exact ⟨_, h, pushEvents_sameGenerator _ s⟩

theorem execPstep_sameHash (s : State) : ∃ t, execPstep s = .next t ∧ SameHash s t := by
  obtain ⟨-, h⟩ | ⟨-, h⟩ := execPstep_cases s
  · exact ⟨_, h, rfl, rfl, rfl⟩
  · exact ⟨_, h, pushEvents_sameHash _ s⟩

theorem execGen_sameHash (arg : Word) (s : State) :
    ∃ t, execGen arg s = .next t ∧ SameHash s t := by
  obtain ⟨-, -, h⟩ | ⟨-, -, h⟩ | ⟨-, h⟩ := execGen_cases arg s
  · exact ⟨_, h, rfl, rfl, rfl⟩
  · exact ⟨_, h, pushEvents_sameHash _ s⟩
  · exact ⟨_, h, pushEvents_sameHash _ s⟩

/-- A fact of the next state that an outcome has is a fact of every next state it has. -/
theorem of_next {P : State → Prop} {o : Host.Outcome State Fault Refusal} {t : State}
    (h : o = .next t) (hP : ∃ t', o = .next t' ∧ P t') : P t := by
  obtain ⟨t', h', hP⟩ := hP
  obtain rfl := Host.Outcome.next.inj (h.symm.trans h')
  exact hP

/-- Settles O24: `exec_input` for the host's side, and the frame of each command for the other
sub-block. -/
theorem subBlocksLeaveEachOtherAlone : Obligations.SubBlocksLeaveEachOtherAlone := by
  intro i s t h
  refine ⟨exec_input h, ?_, ?_⟩
  · rintro (rfl | ⟨len, rfl⟩ | ⟨c, rfl⟩) <;> refine of_next (P := SameGenerator s) h ?_
    · exact execHdraw_sameGenerator s
    · exact ⟨_, rfl, rfl, rfl, rfl, rfl, rfl⟩
    · exact execHabs_sameGenerator c s
  · rintro (rfl | ⟨arg, rfl⟩ | ⟨w, rfl | rfl | rfl | rfl⟩) <;>
      refine of_next (P := SameHash s) h ?_
    · exact execPstep_sameHash s
    · exact execGen_sameHash arg s
    all_goals exact ⟨_, rfl, rfl, rfl, rfl⟩

/-! ### `HINIT` (R80, R83) -/

/-- Settles O11: `HINIT` looks at no field of the state; its word is its encoding. -/
theorem hinitStartsASeed : Obligations.HinitStartsASeed :=
  fun len _ => ⟨rfl, decode_encode (.hinit len)⟩

/-! ### `HABS` (R81, R84) -/

/-- R81 in Lean's own operations. -/
theorem hashAbsorb_eq (h : Word) (c : CodeUnit) :
    hashAbsorb h c = ((h ^^^ c.setWidth 32) * 0xCC9E2D51#32).rotateLeft 13 :=
  rotl32_eq_rotateLeft _ (by decide)

theorem exec_habs_of_ready (c : CodeUnit) {s : State} (hv : s.hvalid = true)
    (hrem : s.hrem ≠ 0#32) :
    exec (.habs c) s = .next
      { answered s .ok 0#32 with h := hashAbsorb s.h c, hrem := s.hrem - 1#32 } := by
  obtain ⟨-, -, h⟩ | ⟨hno, -⟩ := execHabs_cases c s
  · exact h
  · simp [hv, hrem] at hno

theorem exec_habs_of_not_ready (c : CodeUnit) {s : State}
    (hno : s.hvalid = false ∨ s.hrem = 0#32) :
    exec (.habs c) s = .next (answered s .sequence 0#32) := by
  obtain ⟨hv, hrem, -⟩ | ⟨-, h⟩ := execHabs_cases c s
  · simp [hv, hrem] at hno
  · exact h

/-- An accumulator of 0 absorbs the unit 0 unchanged; the one that the unit 1 leaves does not. -/
theorem hashAbsorb_order_matters :
    hashAbsorb (hashAbsorb 0#32 0#16) 1#16 ≠ hashAbsorb (hashAbsorb 0#32 1#16) 0#16 := by
  decide

/-- Settles O12: the two cases of `HABS`, the two kinds of word with opcode 2, and one pair of units
whose order matters. -/
theorem habsAbsorbsOneUnit : Obligations.HabsAbsorbsOneUnit := by
  refine ⟨fun c s => ⟨fun hv hrem => ?_, exec_habs_of_not_ready c, decode_encode (.habs c),
    fun _ harg => runWord_unit_word_of_high harg s⟩, _, _, _, hashAbsorb_order_matters⟩
  rw [← hashAbsorb_eq]
  exact exec_habs_of_ready c hv hrem

/-! ### `HDRAW` (R82, R85) -/

theorem exec_hdraw_of_ready {s : State} (hv : s.hvalid = true) (hrem : s.hrem = 0#32) :
    exec .hdraw s = .next { answered s .ok (hashFinal s.h) with h := hashFinal s.h } := by
  obtain ⟨-, -, h⟩ | ⟨hno, -⟩ := execHdraw_cases s
  · exact h
  · simp [hv, hrem] at hno

theorem exec_hdraw_of_not_ready {s : State} (hno : s.hvalid = false ∨ s.hrem ≠ 0#32) :
    exec .hdraw s = .next (answered s .sequence 0#32) := by
  obtain ⟨hv, hrem, -⟩ | ⟨-, h⟩ := execHdraw_cases s
  · simp [hv, hrem] at hno
  · exact h

/-- Settles O13: the two cases of `HDRAW`, where `hashFinal` is by definition R82's three lines, and
the two kinds of word with opcode 3. -/
theorem hdrawAnswersTheNewAccumulator : Obligations.HdrawAnswersTheNewAccumulator :=
  fun s => ⟨exec_hdraw_of_ready, exec_hdraw_of_not_ready, decode_encode .hdraw,
    fun _ harg => runWord_bare_word_of_operand (by decide) harg s⟩

end Sys2Proof.Machine
end

section
/-! PROOFS. The statements of `prng_engine` (41_prng_engine.md): the loads (R104 to R107) and `PSTEP`
(R100, R108). -/

namespace Sys2Proof.Machine

open Sys2Proof.Safety

/-! ### `PSTEP` (R100, R108) -/

/-- R100 in Lean's own operations. -/
theorem prngStep_eq (p : Prng) :
    prngStep p =
      (⟨p.b ^^^ p.b >>> 9, p.c + p.c <<< 3,
        p.c.rotateLeft 21 + (p.a + p.b + (p.d + 1#32)), p.d + 1#32⟩,
        p.a + p.b + (p.d + 1#32)) := by
  rw [← rotl32_eq_rotateLeft p.c (by decide)]
  rfl

theorem exec_pstep_of_ready {s : State} (hp : s.pvalid = 0b1111#4) :
    exec .pstep s = .next
      { answered s .ok (prngStep (prngOf s)).2 with
        a := (prngStep (prngOf s)).1.a
        b := (prngStep (prngOf s)).1.b
        c := (prngStep (prngOf s)).1.c
        d := (prngStep (prngOf s)).1.d } := by
  obtain ⟨-, h⟩ | ⟨hno, -⟩ := execPstep_cases s
  · exact h
  · exact absurd hp hno

theorem exec_pstep_of_not_ready {s : State} (hno : s.pvalid ≠ 0b1111#4) :
    exec .pstep s = .next (answered s .sequence 0#32) := by
  obtain ⟨hp, -⟩ | ⟨-, h⟩ := execPstep_cases s
  · exact absurd hp hno
  · exact h

/-- Settles O15: the two cases of `PSTEP` with R100's step, and the two kinds of word with
opcode 5. -/
theorem pstepAdvancesTheGenerator : Obligations.PstepAdvancesTheGenerator := by
  refine fun s => ⟨fun hp => ?_, exec_pstep_of_not_ready, decode_encode .pstep,
    fun _ harg => runWord_bare_word_of_operand (by decide) harg s⟩
  rw [exec_pstep_of_ready hp, prngStep_eq]
  rfl

/-! ### `PLDA` to `PLDD` (R104 to R107) -/

/-- Settles O18: each load is one update of the state, in which `setValid` takes the valid bit's mask
by shifting, and each load's word is its encoding. -/
theorem pldLoadsOneRegister : Obligations.PldLoadsOneRegister :=
  fun w _ => ⟨rfl, rfl, rfl, rfl, decode_encode (.plda w), decode_encode (.pldb w),
    decode_encode (.pldc w), decode_encode (.pldd w)⟩

end Sys2Proof.Machine
end

section
/-! PROOFS. The statements of `byte_generator` (42_byte_generator.md): the commands that join the two
sub-blocks, `PSEED`, `GEN` and `CLR` (R120 to R122). -/

namespace Sys2Proof.Machine

open Sys2Proof.Safety

/-! ### The bytes of a generation, one by one (R42, R112, R121) -/

/-- Draw `k`, counted from 0, is the draw of the step after `k` steps. -/
theorem draws_getElem? {n k : Nat} (hk : k < n) (p : Prng) :
    (draws n p)[k]? = some (prngStep (stepMany k p)).2 := by
  induction n generalizing k p with
  | zero => omega
  | succ n ih =>
    cases k with
    | zero => rfl
    | succ k => exact ih (by omega) (prngStep p).1

theorem genBytes_getElem? {n k : Nat} (hk : k < n) (p : Prng) :
    (genBytes n p)[k]? = some (byteOf (prngStep (stepMany k p)).2) := by
  rw [genBytes, List.getElem?_map, draws_getElem? hk, Option.map_some]

/-- A byte's place on the stream gives its index, and `out_last` is on the byte in the last place. -/
theorem streamFrom_getElem? {vs : List Byte} {k : Nat} {v : Byte} (hv : vs[k]? = some v) (i : Nat) :
    (streamFrom i vs)[k]? =
      some (.byte ⟨BitVec.ofNat 31 (i + k), v, decide (k + 1 = vs.length)⟩) := by
  induction vs generalizing i k with
  | nil => simp at hv
  | cons w vs ih =>
    cases k with
    | zero =>
      obtain rfl : w = v := by simpa using hv
      cases vs <;> simp [streamFrom]
    | succ k =>
      have htail : (streamFrom i (w :: vs))[k + 1]? = (streamFrom (i + 1) vs)[k]? := rfl
      rw [htail, ih (by simpa using hv), Nat.add_right_comm i 1 k]
      simp [Nat.add_assoc]

/-! ### `GEN` (R121) -/

theorem exec_gen_of_ready {arg : Word} {s : State} (hbit : arg.getLsbD 31 = false)
    (hp : s.pvalid = 0b1111#4) :
    exec (.gen arg) s = .next
      (pushEvents (streamFrom 0 (genBytes arg.toNat (prngOf s)) ++ [.response ⟨.ok, arg⟩])
        (forgetPrng s)) := by
  obtain ⟨-, -, h⟩ | ⟨-, hno, -⟩ | ⟨hneg, -⟩ := execGen_cases arg s
  · exact h
  · exact absurd hp hno
  · exact absurd (hbit.symm.trans hneg) Bool.false_ne_true

theorem exec_gen_of_not_ready {arg : Word} {s : State} (hbit : arg.getLsbD 31 = false)
    (hno : s.pvalid ≠ 0b1111#4) :
    exec (.gen arg) s = .next (answered s .sequence 0#32) := by
  obtain ⟨-, hp, -⟩ | ⟨-, -, h⟩ | ⟨hneg, -⟩ := execGen_cases arg s
  · exact absurd hp hno
  · exact h
  · exact absurd (hbit.symm.trans hneg) Bool.false_ne_true

theorem exec_gen_of_negative {arg : Word} (hneg : arg.getLsbD 31 = true) (s : State) :
    exec (.gen arg) s = .next (answered s .invalidArgument 0#32) := by
  obtain ⟨hbit, -⟩ | ⟨hbit, -⟩ | ⟨-, h⟩ := execGen_cases arg s
  · exact absurd (hbit.symm.trans hneg) Bool.false_ne_true
  · exact absurd (hbit.symm.trans hneg) Bool.false_ne_true
  · exact h

/-- Settles O16: the stream of `arg` bytes is read off place by place (`genBytes_getElem?`,
`streamFrom_getElem?`), and the count's sign is judged before `pvalid`. -/
theorem genEmitsOneBytePerStep : Obligations.GenEmitsOneBytePerStep := by
  intro arg s
  refine ⟨fun hbit hp => ?_, exec_gen_of_not_ready, fun hneg => exec_gen_of_negative hneg s,
    decode_encode (.gen arg)⟩
  refine ⟨_, streamFrom 0 (genBytes arg.toNat (prngOf s)), exec_gen_of_ready hbit hp,
    (List.append_assoc ..).symm, ?_, fun k hk => ?_, rfl, rfl, rfl, rfl, rfl⟩
  · rw [streamFrom_length, genBytes_length]
  · rw [streamFrom_getElem? (genBytes_getElem? hk _), genBytes_length, Nat.zero_add, byteOf]

/-! ### `PSEED` (R120) -/

theorem exec_pseed_of_ready {s : State} (hv : s.hvalid = true) (hrem : s.hrem = 0#32) :
    exec .pseed s =
      .next (pushEvents [.response ⟨.ok, 0#32⟩] (handOver (seedPrng s.h) s)) := by
  obtain ⟨-, -, h⟩ | ⟨hno, -⟩ := execPseed_cases s
  · exact h
  · simp [hv, hrem] at hno

theorem exec_pseed_of_not_ready {s : State} (hno : s.hvalid = false ∨ s.hrem ≠ 0#32) :
    exec .pseed s = .next (answered s .sequence 0#32) := by
  obtain ⟨hv, hrem, -⟩ | ⟨-, h⟩ := execPseed_cases s
  · simp [hv, hrem] at hno
  · exact h

/-- Settles O14: the two cases of `PSEED`, whose `seedPrng` is by definition the four draws, and the
two kinds of word with opcode 4. -/
theorem pseedSeedsFromFourDraws : Obligations.PseedSeedsFromFourDraws :=
  fun s => ⟨fun hv hrem => ⟨_, exec_pseed_of_ready hv hrem, seedPrng_a s.h, seedPrng_b s.h,
      seedPrng_c s.h, seedPrng_d s.h, rfl, rfl, rfl, rfl, rfl⟩,
    exec_pseed_of_not_ready, decode_encode .pseed,
    fun _ harg => runWord_bare_word_of_operand (by decide) harg s⟩

/-! ### `CLR` (R122) -/

/-- Settles O17: `CLR` is `forgetAll` and a response in every state, and the two kinds of word with
opcode 7. -/
theorem clrForgetsEverything : Obligations.ClrForgetsEverything :=
  fun s => ⟨⟨_, rfl, forgetAll_hvalid s, forgetAll_hrem s, forgetAll_pvalid s, forgetAll_input s,
      rfl⟩,
    decode_encode .clr, fun _ harg => runWord_bare_word_of_operand (by decide) harg s⟩

end Sys2Proof.Machine
end

section
/-! PROOFS. The statements of the exceptions (60_exceptions.md): which words are illegal (R141),
which command a state turns away (R143), the order of judging (R144), what an error leaves alone
(R145), several instances (R151), idle steps and reset (R153, R170), and progress at the ports
(R154). -/

namespace Sys2Proof

/-! ### Illegal words (R65, R141) -/

theorem decodeCodeUnit_illegal_iff {arg : Word} :
    (∃ e, decodeCodeUnit arg = .error e) ↔ arg.extractLsb' 16 16 ≠ 0#16 := by
  unfold decodeCodeUnit
  split_ifs with h <;> simp [h]

theorem decodeNoOperand_illegal_iff {i : Instr} {arg : Word} :
    (∃ e, decodeNoOperand i arg = .error e) ↔ arg ≠ 0#32 := by
  unfold decodeNoOperand
  split_ifs with h <;> simp [h]

/-- An opcode that no arm of the decoder names (R64). -/
theorem opcode_reserved {op : BitVec 4} (h : op.toNat ∉ List.range' 1 11) :
    op ∈ [0x0#4, 0xC#4, 0xD#4, 0xE#4, 0xF#4] := by
  revert op
  decide

/-- The opcode selects what is asked of the operand: nothing, a zero upper half, or zero. -/
theorem decode_illegal_iff (w : CommandWord) :
    (∃ e, decode w = .error e) ↔
      (opOf w ∈ [0x0#4, 0xC#4, 0xD#4, 0xE#4, 0xF#4] ∨
       (opOf w = 0x2#4 ∧ (argOf w).extractLsb' 16 16 ≠ 0#16) ∨
       (opOf w ∈ [0x3#4, 0x4#4, 0x5#4, 0x7#4] ∧ argOf w ≠ 0#32)) := by
  have hopcode {n : Nat} (h : (opOf w).toNat = n) : opOf w = BitVec.ofNat 4 n := by simp [← h]
  unfold decode
  split
  case h_1 hop | h_6 hop | h_8 hop | h_9 hop | h_10 hop | h_11 hop => simp [hopcode hop]
  case h_2 hop => rw [decodeCodeUnit_illegal_iff]; simp [hopcode hop]
  case h_3 hop | h_4 hop | h_5 hop | h_7 hop =>
    rw [decodeNoOperand_illegal_iff]; simp [hopcode hop]
  case h_12 => exact iff_of_true ⟨_, rfl⟩ (.inl (opcode_reserved (by simp_all [List.range'])))

/-! ### A word spells a command exactly when it matches a row (R64) -/

theorem wellFormed_encode (i : Instr) : CommandWord.wellFormed (encode i) = true := by
  cases i with
  | hinit len => exact (Laws.EncodedForm.hinit len).1
  | habs c => exact (Laws.EncodedForm.habs c).1
  | hdraw => exact Laws.EncodedForm.hdraw.1
  | pseed => exact Laws.EncodedForm.pseed.1
  | pstep => exact Laws.EncodedForm.pstep.1
  | gen arg => exact (Laws.EncodedForm.gen arg).1
  | clr => exact Laws.EncodedForm.clr.1
  | plda w => exact (Laws.EncodedForm.plda w).1
  | pldb w => exact (Laws.EncodedForm.pldb w).1
  | pldc w => exact (Laws.EncodedForm.pldc w).1
  | pldd w => exact (Laws.EncodedForm.pldd w).1

theorem wellFormed_iff {w : CommandWord} :
    CommandWord.wellFormed w = true ↔ ∃ i, decode w = .ok i := by
  constructor
  · intro h
    obtain ⟨hinit, habs, hdraw, pseed, pstep, gen, clr, plda, pldb, pldc, pldd⟩ :=
      wordsSpellTheRowTheyMatch.1 w
    simp only [CommandWord.wellFormed, opcodeMap, OpcodeRow.covers, List.any_cons, List.any_nil,
      Bool.or_eq_true, Bool.or_false, beq_iff_eq, hinit, habs, hdraw, pseed, pstep, gen, clr, plda,
      pldb, pldc, pldd] at h
    obtain h | h | h | h | h | h | h | h | h | h | h := h <;> exact ⟨_, h⟩
  · rintro ⟨i, h⟩
    rw [decode_eq_ok_iff.mp h]
    exact wellFormed_encode i

end Sys2Proof

namespace Sys2Proof.Machine

open Sys2Proof.Safety

theorem runWord_illegal {w : CommandWord} (h : ∃ e, decode w = .error e) (s : State) :
    runWord w s = .next (answered s .illegal 0#32) := by
  obtain ⟨e, he⟩ := h
  exact runWord_of_illegal he s

/-- Settles O5: the illegal words are read off the decoder's arms, and a step with one is its error
response alone. -/
theorem illegalWordsOnlyAnswerIllegal : Obligations.IllegalWordsOnlyAnswerIllegal :=
  fun w _ _ => ⟨decode_illegal_iff w,
    fun hs hw => (step_of_presented hs).trans (runWord_illegal hw _)⟩

/-! ### The code of a command's response (R141 to R144) -/

/-- The code a command is answered with: a count is judged before the state is (R144), and only
some commands ask something of the state (R143). -/
def responseCode (i : Instr) (s : State) : RspCode :=
  match i with
  | .habs _ => if absorbReady s then .ok else .sequence
  | .hdraw | .pseed => if drawReady s then .ok else .sequence
  | .pstep => if prngReady s then .ok else .sequence
  | .gen arg =>
    if signed32 arg < 0 then .invalidArgument else if prngReady s then .ok else .sequence
  | .hinit _ | .clr | .plda _ | .pldb _ | .pldc _ | .pldd _ => .ok

/-- The outcome is a next state, whose last port event is a response with this code. -/
def AnswersWith (code : RspCode) (o : Host.Outcome State Fault Refusal) : Prop :=
  ∃ t r, o = .next t ∧ t.events.getLast? = some (.response r) ∧ r.code = code

theorem respondAfter_answersWith (bytes : List PortEvent) (data : Word) (s : State) :
    AnswersWith .ok (respondAfter bytes data s) :=
  ⟨_, ⟨.ok, data⟩, rfl, by simp, rfl⟩

theorem respondOk_answersWith (data : Word) (s : State) : AnswersWith .ok (respondOk data s) :=
  respondAfter_answersWith [] data s

theorem raise_answersWith (code : RspCode) (s : State) : AnswersWith code (raise code s) :=
  ⟨_, ⟨code, 0#32⟩, rfl, by simp, rfl⟩

theorem ite_answersWith {P : Prop} [Decidable P] {c d : RspCode}
    {o p : Host.Outcome State Fault Refusal} (ho : AnswersWith c o) (hp : AnswersWith d p) :
    AnswersWith (if P then c else d) (if P then o else p) := by
  split_ifs
  · exact ho
  · exact hp

theorem exec_answersWith (i : Instr) (s : State) : AnswersWith (responseCode i s) (exec i s) := by
  have hseq := raise_answersWith .sequence s
  cases i with
  | hinit | clr | plda | pldb | pldc | pldd => exact respondOk_answersWith _ _
  | habs | hdraw | pseed | pstep => exact ite_answersWith (respondOk_answersWith _ _) hseq
  | gen arg =>
    exact ite_answersWith (raise_answersWith _ s)
      (ite_answersWith (respondAfter_answersWith _ _ _) hseq)

theorem responseCode_gen_of_negative {arg : Word} (h : arg.getLsbD 31 = true) (s : State) :
    responseCode (.gen arg) s = .invalidArgument :=
  if_pos (signed32_neg h)

theorem responseCode_gen_of_count {arg : Word} (h : arg.getLsbD 31 = false) (s : State) :
    responseCode (.gen arg) s = if prngReady s then .ok else .sequence :=
  if_neg (by rw [signed32_nonneg h]; omega)

/-- Settles O19: each command's code, and the model's admission conditions as the table writes
them. -/
theorem sequenceExactlyWhenNotAdmitted : Obligations.SequenceExactlyWhenNotAdmitted := by
  intro i s
  obtain ⟨t, r, ht, hlast, hcode⟩ := exec_answersWith i s
  refine ⟨t, r, ht, hlast, ?_⟩
  rw [hcode]
  cases i with
  | hinit | clr | plda | pldb | pldc | pldd => simp [responseCode]
  | habs => simp [responseCode, absorbReady_iff, imp_iff_not_or]
  | hdraw | pseed => simp [responseCode, drawReady_iff, imp_iff_not_or]
  | pstep => simp [responseCode, prngReady_iff]
  | gen arg =>
    dsimp only
    cases hbit : arg.getLsbD 31 with
    | true => simp [responseCode_gen_of_negative hbit]
    | false => simp [responseCode_gen_of_count hbit, prngReady_iff]

/-! ### The word is judged before the state (R144) -/

/-- `GEN` with a negative count, read off its word (R62, R142). -/
theorem exists_negative_gen_iff {w : CommandWord} {i : Instr} (h : decode w = .ok i) :
    (opOf w = 0x6#4 ∧ (argOf w).getLsbD 31 = true) ↔
      ∃ arg, i = .gen arg ∧ arg.getLsbD 31 = true := by
  obtain rfl := decode_eq_ok_iff.mp h
  cases i <;> simp [encode, opOf_wordOf, argOf_wordOf]

/-- Apart from a negative count, only the state can turn a command away. -/
theorem responseCode_of_not_negative {i : Instr}
    (h : ¬ ∃ arg, i = .gen arg ∧ arg.getLsbD 31 = true) (s : State) :
    responseCode i s = .ok ∨ responseCode i s = .sequence := by
  cases i with
  | hinit | clr | plda | pldb | pldc | pldd => exact .inl rfl
  | habs | hdraw | pseed | pstep => exact ite_eq_or_eq ..
  | gen arg =>
    have hbit : arg.getLsbD 31 = false := Bool.eq_false_iff.mpr fun hneg => h ⟨arg, rfl, hneg⟩
    rw [responseCode_gen_of_count hbit]
    exact ite_eq_or_eq ..

/-- Settles O20: a word that matches no row is illegal in every state, and any other word runs its
command, whose code depends on the state only where the count is not negative. -/
theorem wordIsJudgedBeforeState : Obligations.WordIsJudgedBeforeState := by
  intro w s
  cases hw : decode w with
  | error e =>
    obtain ⟨t, r, ht, hlast, hcode⟩ := raise_answersWith .illegal s
    have hill : ¬ CommandWord.wellFormed w = true := by simp [wellFormed_iff, hw]
    exact ⟨t, r, (runWord_of_illegal hw s).trans ht, hlast, fun _ => hcode, (absurd · hill)⟩
  | ok i =>
    obtain ⟨t, r, ht, hlast, hcode⟩ := exec_answersWith i s
    have hwf : CommandWord.wellFormed w = true := wellFormed_iff.mpr ⟨i, hw⟩
    refine ⟨t, r, (runWord_of_decode hw s).trans ht, hlast, by simp [hwf], fun _ => ?_⟩
    rw [exists_negative_gen_iff hw, hcode]
    refine ⟨?_, (responseCode_of_not_negative · s)⟩
    rintro ⟨arg, rfl, hneg⟩
    exact responseCode_gen_of_negative hneg s

/-! ### An error writes no state (R145) -/

/-- Settles O22: a word succeeds with an `OK` response as the last event, or fails and is its
response alone. -/
theorem errorsWriteNoState : Obligations.ErrorsWriteNoState := by
  intro w s t r ht hlast hr
  obtain ⟨t', ht', h⟩ := runWord_succeeds_or_fails w s
  obtain rfl : t = t' := Host.Outcome.next.inj (ht.symm.trans ht')
  obtain ⟨i, -, bytes, hevents, -, -⟩ | ⟨code, -, rfl⟩ := h
  · have hrsp : ⟨.ok, okData i s t⟩ = r := by simpa [hevents] using hlast
    exact absurd (congrArg Response.code hrsp).symm hr
  · obtain rfl : ⟨code, 0#32⟩ = r := by simpa using hlast
    rfl

/-! ### Several instances (R151) -/

theorem systemStep_of_absent {sys : List State} {k : Nat} (h : sys[k]? = none) :
    systemStep k sys = none := by
  simp [systemStep, h]

theorem systemStep_of_step {sys : List State} {k : Nat} {s t : State} (hs : sys[k]? = some s)
    (ht : step s = .next t) : systemStep k sys = some (sys.set k t) := by
  simp [systemStep, hs, ht]

/-- The other instance's step finds its place as it was, so both orders write the same two states
to the same two places; a place that is not there is there in neither order. -/
theorem systemStep_comm {sys : List State} {j k : Nat} {s t : State} (hjk : j ≠ k)
    (hs : sys[k]? = some s) (ht : step s = .next t) :
    (systemStep k sys).bind (systemStep j) = (systemStep j sys).bind (systemStep k) := by
  have hother : (sys.set k t)[j]? = sys[j]? := List.getElem?_set_ne hjk.symm
  rw [systemStep_of_step hs ht, Option.bind_some]
  cases hj : sys[j]? with
  | none => rw [systemStep_of_absent hj, systemStep_of_absent (hother.trans hj), Option.bind_none]
  | some u =>
    obtain ⟨v, hv⟩ := everyStepReachesAState u
    have hsame : (sys.set j v)[k]? = some s := (List.getElem?_set_ne hjk).trans hs
    rw [systemStep_of_step hj hv, systemStep_of_step (hother.trans hj) hv, Option.bind_some,
      systemStep_of_step hsame ht, List.set_comm _ _ hjk.symm]

/-- Settles O41: a step writes one place of the list, and reads no other. -/
theorem instancesShareNothing : Obligations.InstancesShareNothing := by
  intro sys k hk
  have hs : sys[k]? = some sys[k] := List.getElem?_eq_getElem hk
  obtain ⟨t, ht⟩ := everyStepReachesAState sys[k]
  exact ⟨sys.set k t, systemStep_of_step hs ht, List.length_set,
    fun _ hj => List.getElem?_set_ne hj.symm, fun _ hj => systemStep_comm hj hs ht⟩

/-! ### Idle steps and reset (R148, R153, R170) -/

/-- Settles O8: an idle step is its own rule, and a reset is `forgetAll` without a response. -/
theorem idleHoldsAndResetClears : Obligations.IdleHoldsAndResetClears :=
  ⟨fun _ => step_of_idle, fun _ _ hs => ⟨_, step_of_presented hs, forgetAll_hvalid _,
    forgetAll_hrem _, forgetAll_pvalid _, forgetAll_input _, forgetAll_events _⟩⟩

/-! ### A command in progress is answered in the end (R154) -/

/-- The host takes bytes, offers no command and does not reset. -/
def Patient (i : PortIn) : Prop := i.rst = false ∧ i.outReady = true ∧ i.cmdValid = false

/-- While the host waits, the block stays as it is, and no event is lost or added. -/
theorem clockEdges_keeps {is : List PortIn} (his : ∀ i ∈ is, Patient i) (p : PortState) :
    (clockEdges is p).block = p.block ∧
      (clockEdges is p).sent ++ (clockEdges is p).pending = p.sent ++ p.pending := by
  induction is generalizing p with
  | nil => exact ⟨rfl, rfl⟩
  | cons i is ih =>
    obtain ⟨hi, his⟩ := List.forall_mem_cons.mp his
    obtain ⟨hrst, -, hoffer⟩ := hi
    obtain ⟨-, -, hkeep⟩ := portsTakeOneCommandAtATime p i hrst
    obtain ⟨hblock, hevents⟩ := hkeep (by simp [hoffer])
    obtain ⟨hblock', hevents'⟩ := ih his (clockEdge p i)
    exact ⟨hblock'.trans hblock, hevents'.trans hevents⟩

/-- After `k` cycles of a waiting host nothing is pending. -/
def DrainsIn (k : Nat) (p : PortState) : Prop :=
  ∀ is : List PortIn, is.length = k → (∀ i ∈ is, Patient i) → (clockEdges is p).pending = []

/-- A waiting host's cycle that leads to a state that drains may come first. -/
theorem exists_drainsIn_of_edge {p q : PortState} (hedge : ∀ i, Patient i → clockEdge p i = q)
    (hq : ∃ k, DrainsIn k q) : ∃ k, DrainsIn k p := by
  obtain ⟨k, hk⟩ := hq
  refine ⟨k + 1, fun is hlen his => ?_⟩
  cases is with
  | nil => cases hlen
  | cons i is =>
    obtain ⟨hi, his⟩ := List.forall_mem_cons.mp his
    rw [clockEdges, hedge i hi]
    exact hk is (Nat.succ.inj hlen) his

section
variable {p : PortState} {e : PortEvent} {rest : List PortEvent} {i : PortIn}

theorem canTransfer_of_patient (hi : Patient i) (e : PortEvent) : canTransfer e i = true := by
  obtain ⟨-, hready, -⟩ := hi
  cases e with
  | byte b => exact hready
  | response r => rfl

/-- A delay that is over lets the first pending event go. -/
theorem clockEdge_transfers (hpending : p.pending = e :: rest) (hwait : p.wait = 0)
    (hi : Patient i) :
    clockEdge p i =
      { p with
        sent := p.sent ++ [e]
        pending := rest
        wait := Config.latency (p.cycles + 1)
        cycles := p.cycles + 1 } := by
  simp [clockEdge_busy hi.1 hpending, transferNext, hwait, canTransfer_of_patient hi]

/-- A delay that is not over becomes shorter. -/
theorem clockEdge_waits (hpending : p.pending = e :: rest) {n : Nat} (hwait : p.wait = n + 1)
    (hi : Patient i) : clockEdge p i = { p with wait := n, cycles := p.cycles + 1 } := by
  simp [clockEdge_busy hi.1 hpending, transferNext, hwait]

end

/-- By induction on the pending events and, for the first of them, on the delay before it. -/
theorem exists_drainsIn (p : PortState) : ∃ k, DrainsIn k p := by
  induction hpending : p.pending generalizing p with
  | nil =>
    refine ⟨0, fun is hlen _ => ?_⟩
    rw [List.length_eq_zero_iff.mp hlen]
    exact hpending
  | cons e rest ih =>
    induction hwait : p.wait generalizing p with
    | zero => exact exists_drainsIn_of_edge (fun _ => clockEdge_transfers hpending hwait) (ih _ rfl)
    | succ n ihn =>
      exact exists_drainsIn_of_edge (fun _ => clockEdge_waits hpending hwait) (ihn _ hpending rfl)

/-- Settles O46: once nothing is pending, what was carried or pending has all been carried. -/
theorem everyCommandIsAnsweredInTheEnd : Obligations.EveryCommandIsAnsweredInTheEnd := by
  intro p
  obtain ⟨k, hk⟩ := exists_drainsIn p
  refine ⟨k, fun is hlen his => ?_⟩
  have hempty := hk is hlen his
  obtain ⟨hblock, hevents⟩ := clockEdges_keeps his p
  rw [hempty, List.append_nil] at hevents
  exact ⟨hempty, hevents, hblock⟩

end Sys2Proof.Machine
end

section
/-! PROOFS. A reset at the ports abandons the command in progress (R170). -/

namespace Sys2Proof.Machine

open Sys2Proof.Safety

/-- While `rst` is high nothing is shown (R170). -/
theorem portOutputs_reset {p : PortState} {i : PortIn} (hrst : i.rst = true) :
    portOutputs p i = { cmdReady := false, rsp := none, out := none } :=
  if_pos hrst

/-- An edge with `rst` high is a reset, whatever is in progress or offered (R170). -/
theorem clockEdge_reset {p : PortState} {i : PortIn} (hrst : i.rst = true) :
    clockEdge p i = portAbandon { p with cycles := p.cycles + 1 } :=
  if_pos hrst

/-- A reset leaves what the reset state leaves, on everything a rule may read (R34, R170). -/
theorem resetBlock_sameRegisters (s : State) : SameRegisters (resetBlock s) State.reset :=
  sameRegisters_of_nothing_valid (forgetAll_hvalid s) rfl (forgetAll_hrem s) (forgetAll_pvalid s)
    rfl

/-- Settles O44: the edge gives up what is pending and resets the block with the events carried, and
a block with nothing pending is ready. -/
theorem resetAbandonsTheCommandInProgress : Obligations.ResetAbandonsTheCommandInProgress := by
  intro p i j hi hj
  refine ⟨portOutputs_reset hi, ?_⟩
  rw [clockEdge_reset hi, cmdReady_iff hj]
  exact ⟨rfl, rfl, forgetAll_events _, resetBlock_sameRegisters _, rfl⟩

end Sys2Proof.Machine
end

section
/-! PROOFS. The arithmetic of the hash and of the generator: `hash_absorb` and `hash_final` lose
nothing (40_string_hash_expand.md sections 1 and 3), the step counter and the byte of a draw
(41_prng_engine.md sections 1 and 3), and the units of a character (R71, R90). -/

namespace Sys2Proof.Machine

open Sys2Proof.Safety

/-! ### The primitives that lose nothing -/

/-- A multiplier with an inverse modulo 2^32 loses nothing. -/
theorem mul32_injective {k inv : Word} (h : k * inv = 1#32) :
    Function.Injective fun x => mul32 x k := by
  refine Function.LeftInverse.injective (g := fun x => mul32 x inv) fun x => ?_
  simp [mul32, BitVec.mul_assoc, h]

/-- A rotation carries each bit to a place of its own (R13). -/
theorem rotl32_injective {n : Nat} (hn : n < 32) : Function.Injective fun x => rotl32 x n := by
  intro x y h
  apply BitVec.eq_of_getLsbD_eq
  intro k hk
  rw [← rotl32_getLsbD x hn hk, ← rotl32_getLsbD y hn hk]
  exact congrArg (·.getLsbD ((k + n) % 32)) h

/-- Only 0 is its own right shift: any other value gets smaller. -/
theorem eq_zero_of_eq_shr32 {z : Word} {n : Nat} (hn : n ≠ 0) (h : z = shr32 z n) : z = 0#32 := by
  have hdiv : z.toNat / 2 ^ n = z.toNat := by rw [← shr32_toNat, ← h]
  obtain hz | hpow := Nat.div_eq_self.mp hdiv
  · exact BitVec.eq_of_toNat_eq hz
  · exact absurd hpow (by simpa using hn)

/-- The difference of two values with the same image is its own right shift, so it is 0. -/
theorem xor32_shr32_injective {n : Nat} (hn : n ≠ 0) :
    Function.Injective fun x => xor32 x (shr32 x n) := by
  intro x y (h : x ^^^ x >>> n = y ^^^ y >>> n)
  have hdiff : (x ^^^ y) ^^^ (x ^^^ y) >>> n = 0#32 :=
    calc (x ^^^ y) ^^^ (x ^^^ y) >>> n
        = (x ^^^ x >>> n) ^^^ (y ^^^ y >>> n) := by rw [BitVec.ushiftRight_xor_distrib]; ac_rfl
      _ = 0#32 := by rw [h, BitVec.xor_self]
  exact BitVec.xor_eq_zero_iff.mp (eq_zero_of_eq_shr32 hn (BitVec.xor_eq_zero_iff.mp hdiff))

theorem zext32_injective : Function.Injective zext32 :=
  Function.LeftInverse.injective (g := BitVec.extractLsb' 0 16) argOfCodeUnit_low

/-! ### `hash_absorb` (R81) -/

/-- What absorbing does to the accumulator and the unit once they are combined (R81). -/
def absorbMix (x : Word) : Word := rotl32 (mul32 x kAbs) absorbRotate

theorem hashAbsorb_eq_absorbMix (h : Word) (c : CodeUnit) :
    hashAbsorb h c = absorbMix (xor32 h (zext32 c)) := rfl

theorem absorbMix_zero : absorbMix 0#32 = 0#32 := by decide

theorem absorbMix_injective : Function.Injective absorbMix :=
  (rotl32_injective (n := absorbRotate) (by decide)).comp
    (mul32_injective (inv := 0xDEE13BB1#32) (by decide))

theorem hashAbsorb_injective (h : Word) : Function.Injective (hashAbsorb h) := by
  intro x y hxy
  rw [hashAbsorb_eq_absorbMix, hashAbsorb_eq_absorbMix] at hxy
  exact zext32_injective ((BitVec.xor_right_inj h).mp (absorbMix_injective hxy))

/-- Settles O37: the mixing takes only 0 to 0, and a combination is 0 where both sides agree. -/
theorem absorbIsZeroOnlyAtItsUnit : Obligations.AbsorbIsZeroOnlyAtItsUnit := by
  intro h c
  rw [hashAbsorb_eq_absorbMix, ← absorbMix_zero, absorbMix_injective.eq_iff]
  exact BitVec.xor_eq_zero_iff

/-! ### `hash_final` (R82) -/

/-- Each of R82's three lines loses nothing. -/
theorem hashFinal_injective : Function.Injective hashFinal := by
  have hline1 : Function.Injective fun x => mul32 (xor32 x (shr32 x finalShift1)) kF1 :=
    (mul32_injective (inv := 0xA5CB9243#32) (by decide)).comp (xor32_shr32_injective (by decide))
  have hline2 : Function.Injective fun x => mul32 (xor32 x (shr32 x finalShift2)) kF2 :=
    (mul32_injective (inv := 0x7ED1B41D#32) (by decide)).comp (xor32_shr32_injective (by decide))
  have hline3 : Function.Injective fun x => xor32 x (shr32 x finalShift3) :=
    xor32_shr32_injective (by decide)
  exact hline3.comp (hline2.comp hline1)

theorem hashFinal_zero : hashFinal 0#32 = 0#32 := by decide

theorem hashFinal_eq_zero_iff (h : Word) : hashFinal h = 0#32 ↔ h = 0#32 := by
  simpa only [hashFinal_zero] using hashFinal_injective.eq_iff (a := h) (b := 0#32)

theorem hashDraw_injective (k : Nat) : Function.Injective (hashDraw k) := by
  induction k with
  | zero => exact fun _ _ h => h
  | succ k ih => exact hashFinal_injective.comp ih

theorem seedPrng_zero : seedPrng 0#32 = ⟨0#32, 0#32, 0#32, 0#32⟩ := by
  simp only [seedPrng, hashFinal_zero]

/-- Settles O36: an injective function on the 32-bit values is a bijection; the two seeds are
computed. -/
theorem hashFinalIsABijectionFixingZero : Obligations.HashFinalIsABijectionFixingZero :=
  ⟨Finite.injective_iff_bijective.mp hashFinal_injective, hashFinal_eq_zero_iff, seedPrng_zero,
    by decide +kernel, by decide +kernel⟩

/-! ### The last unit of a seed (R81, R86) -/

/-- A seed's last unit is absorbed last, into an accumulator that depends on the seed's length and
the units before it. -/
theorem accumulate_append_singleton (seed : List CodeUnit) (c : CodeUnit) :
    accumulate (seed ++ [c]) =
      hashAbsorb (seed.foldl hashAbsorb (hashInit (BitVec.ofNat 32 (seed.length + 1)))) c := by
  simp only [accumulate, List.foldl_append, List.foldl_cons, List.foldl_nil, List.length_append,
    List.length_cons, List.length_nil]

/-- Settles O38: neither the draws nor the absorption of the last unit lose a difference. -/
theorem lastUnitChangesEveryDraw : Obligations.LastUnitChangesEveryDraw := by
  intro seed x y k hxy h
  have hacc := hashDraw_injective k h
  rw [accumulate_append_singleton, accumulate_append_singleton] at hacc
  exact hxy (hashAbsorb_injective _ hacc)

/-! ### The counter and the byte of a draw (R100 to R102, R110) -/

theorem stepMany_d (k : Nat) (p : Prng) : (stepMany k p).d = p.d + BitVec.ofNat 32 k := by
  induction k generalizing p with
  | zero => exact (BitVec.add_zero p.d).symm
  | succ k ih =>
    rw [stepMany, ih, prngStep_eq, Nat.add_comm k 1, BitVec.ofNat_add, BitVec.add_assoc]

/-- Settles O35: each step adds 1 to `d`. -/
theorem counterCountsSteps : Obligations.CounterCountsSteps := by
  intro k p
  rw [stepMany_d, BitVec.toNat_add, BitVec.toNat_ofNat, Nat.add_mod_mod]

theorem byteOf_toNat (t : Word) : (byteOf t).toNat = t.toNat / 2 ^ 24 := by
  have ht := t.isLt
  rw [byteOf, BitVec.extractLsb'_toNat, Nat.shiftRight_eq_div_pow, Nat.mod_eq_of_lt (by omega)]

/-- Settles O39: the scaled draw is `t / 2^24`, whose floor is a natural division. -/
theorem byteIsTheFloorOfTheScaledDraw : Obligations.ByteIsTheFloorOfTheScaledDraw := by
  intro t
  have hlt : (t.toNat : ℚ) < 2 ^ 32 := by exact_mod_cast t.isLt
  have hscaled : drawValue t * (256 - 0) + 0 = (t.toNat : ℚ) / (2 ^ 24 : Nat) := by
    rw [drawValue]
    push_cast
    ring
  refine ⟨by unfold drawValue; positivity, (div_lt_one (by norm_num)).mpr hlt, ?_⟩
  rw [hscaled, Rat.floor_natCast_div_natCast, byteOf_toNat, Int.natCast_div]

/-! ### The units of a character (R71, R90) -/

theorem char_toNat_lt (c : Char) : c.toNat < 0x110000 := by
  have hvalid : c.toNat < 0xD800 ∨ 0xDFFF < c.toNat ∧ c.toNat < 0x110000 := c.valid
  omega

/-- Settles O40: below 10000h the one unit; from there on the excess over 10000h has 20 bits, and
each surrogate carries ten of them (log entry 16). -/
theorem unitsGiveTheCharacterBack : Obligations.UnitsGiveTheCharacterBack := by
  intro c
  refine ⟨fun h => if_pos h, fun h => ⟨_, _, if_neg (by omega), ?_⟩⟩
  have hc := char_toNat_lt c
  rw [BitVec.toNat_ofNat, BitVec.toNat_ofNat]
  omega

end Sys2Proof.Machine
end

section
/-! PROOFS. The listed words (95_test_vectors.md section 2.7), the first command after reset
(70_reset_and_hazards.md section 1), and what commands do one after another (R16): the commands that
may be issued twice (20_memory.md section 3), a seed's commands and the draws after them
(40_string_hash_expand.md section 3), and the canonical program with its parts, and generations of
two lengths (42_byte_generator.md section 2). -/

namespace Sys2Proof.Machine

open Sys2Proof.Safety

/-! ### The listed words (R60 to R65) -/

/-- Settles O6: thirteen closed words, each of them decoded. -/
theorem specWordsDecodeAsListed : Obligations.SpecWordsDecodeAsListed := by
  unfold Obligations.SpecWordsDecodeAsListed
  decide

/-! ### Commands issued twice (R83, R104 to R107, R122) -/

theorem setValid_setValid (k : Nat) (v : BitVec 4) : setValid k (setValid k v) = setValid k v := by
  rw [setValid, setValid, BitVec.or_assoc, BitVec.or_self]

/-- Settles O29: the second `HINIT` or load writes what the first one wrote, and after the second
`CLR`, too, nothing is valid. -/
theorem loadsHinitAndClrAreIdempotent : Obligations.LoadsHinitAndClrAreIdempotent := by
  rintro i s (⟨len, rfl⟩ | rfl | ⟨w, rfl | rfl | rfl | rfl⟩) <;> refine ⟨_, _, rfl, rfl, ?_⟩
  · exact ⟨rfl, rfl, rfl, fun _ => rfl, fun _ => rfl, fun _ => rfl, fun _ => rfl, fun _ => rfl⟩
  · exact sameRegisters_of_nothing_valid rfl rfl rfl rfl rfl
  all_goals
    exact ⟨rfl, rfl, (setValid_setValid _ _).symm, fun _ => rfl, fun _ => rfl, fun _ => rfl,
      fun _ => rfl, fun _ => rfl⟩

/-! ### The first command after reset (R34, R141 to R144) -/

/-- The code of the first command after reset: every command that asks something of the state is
turned away. -/
def firstCode : Instr → RspCode
  | .hinit _ | .clr | .plda _ | .pldb _ | .pldc _ | .pldd _ => .ok
  | .habs _ | .hdraw | .pseed | .pstep => .sequence
  | .gen n => if n[31] then .invalidArgument else .sequence

theorem responseCode_of_nothing_valid {s : State} (hv : s.hvalid = false)
    (hp : s.pvalid = 0b0000#4) (i : Instr) : responseCode i s = firstCode i := by
  have habsorb : absorbReady s = false := by simp [absorbReady, hv]
  have hdraw : drawReady s = false := by simp [drawReady, hv]
  have hprng : prngReady s = false := by simp [prngReady, hp, allValid]
  cases i with
  | hinit | clr | plda | pldb | pldc | pldd => rfl
  | habs => simp [responseCode, firstCode, habsorb]
  | hdraw | pseed => simp [responseCode, firstCode, hdraw]
  | pstep => simp [responseCode, firstCode, hprng]
  | gen n =>
    cases hbit : n.getLsbD 31 with
    | true => exact (responseCode_gen_of_negative hbit s).trans (if_pos hbit).symm
    | false =>
      rw [responseCode_gen_of_count hbit, hprng]
      exact (if_neg (Bool.eq_false_iff.mp hbit)).symm

/-- Settles O30: an illegal word is illegal in every state, and any other word is answered with the
code of its command. -/
theorem firstCommandAfterReset : Obligations.FirstCommandAfterReset := by
  intro w s hv _ hp
  cases hw : decode w with
  | error e =>
    obtain ⟨t, r, ht, hlast, hcode⟩ := raise_answersWith .illegal s
    exact ⟨t, r, (runWord_of_illegal hw s).trans ht, hlast, by simp [hcode]⟩
  | ok i =>
    obtain ⟨t, r, ht, hlast, hcode⟩ := exec_answersWith i s
    refine ⟨t, r, (runWord_of_decode hw s).trans ht, hlast, ?_⟩
    rw [hcode, responseCode_of_nothing_valid hv hp]
    cases i with
    | hinit | clr | plda | pldb | pldc | pldd | habs | hdraw | pseed | pstep => simp [firstCode]
    | gen n => cases hbit : n[31] <;> simp [firstCode, hbit]

/-! ### Running lists of commands (R16) -/

theorem execAll_cons {i : Instr} {s t : State} (h : exec i s = .next t) (is : List Instr) :
    execAll (i :: is) s = execAll is t := by
  rw [execAll, h]

theorem execAll_append {is : List Instr} {s t : State} (h : execAll is s = .next t)
    (js : List Instr) : execAll (is ++ js) s = execAll js t := by
  induction is generalizing s with
  | nil =>
    obtain rfl : s = t := Host.Outcome.next.inj h
    rfl
  | cons i is ih =>
    obtain ⟨u, hu⟩ := exec_reaches i s
    rw [execAll_cons hu] at h
    rw [List.cons_append, execAll_cons hu, ih h]

theorem execAll_append_singleton {is : List Instr} {i : Instr} {s t u : State}
    (hs : execAll is s = .next t) (ht : exec i t = .next u) :
    execAll (is ++ [i]) s = .next u := by
  rw [execAll_append hs, execAll_cons ht, execAll]

/-! ### A seed's commands (R83, R84, R86) -/

/-- The response of a command that answers no value. -/
def okZero : PortEvent := .response ⟨.ok, 0#32⟩

/-- The hash after absorbing as many units as it is owed: each is answered, and none is owed. -/
def absorbed (units : List CodeUnit) (s : State) : State :=
  { s with
    h := units.foldl hashAbsorb s.h
    hrem := 0#32
    events := s.events ++ List.replicate units.length okZero }

theorem ofNat_succ_ne_zero {n : Nat} (hn : n + 1 < 2 ^ 32) : BitVec.ofNat 32 (n + 1) ≠ 0#32 := by
  intro h
  have hnat := congrArg BitVec.toNat h
  rw [BitVec.toNat_ofNat, Nat.mod_eq_of_lt hn] at hnat
  exact Nat.succ_ne_zero n hnat

theorem ofNat_succ_sub_one (n : Nat) : BitVec.ofNat 32 (n + 1) - 1#32 = BitVec.ofNat 32 n := by
  rw [BitVec.ofNat_add, BitVec.add_sub_cancel]

/-- By induction on the units: each `HABS` finds one unit owed at least. -/
theorem execAll_habs {units : List CodeUnit} (hlen : units.length < 2 ^ 32) {s : State}
    (hv : s.hvalid = true) (hrem : s.hrem = BitVec.ofNat 32 units.length) :
    execAll (units.map .habs) s = .next (absorbed units s) := by
  induction units generalizing s with
  | nil => simp [execAll, absorbed, State.ext_iff, hrem]
  | cons c units ih =>
    rw [List.length_cons] at hlen hrem
    have howed : s.hrem ≠ 0#32 := hrem ▸ ofNat_succ_ne_zero hlen
    rw [List.map_cons, execAll_cons (exec_habs_of_ready c hv howed)]
    have hrest : s.hrem - 1#32 = BitVec.ofNat 32 units.length := by rw [hrem, ofNat_succ_sub_one]
    rw [ih (by omega)]
    · simp [absorbed, answered, okZero, List.replicate_succ]
    · exact hv
    · exact hrest

/-- The state after a seed's commands: the accumulator `A(s)`, and an answer to each command. -/
def hashedSeed (seed : List CodeUnit) (s : State) : State :=
  { s with
    h := accumulate seed
    hrem := 0#32
    hvalid := true
    events := s.events ++ List.replicate (seed.length + 1) okZero }

theorem execAll_seedCommands {seed : List CodeUnit} (hlen : seed.length < 2 ^ 32) (s : State) :
    execAll (seedCommands seed) s = .next (hashedSeed seed s) := by
  rw [seedCommands, execAll_cons rfl, execAll_habs hlen rfl rfl]
  simp [absorbed, hashedSeed, accumulate, okZero, List.replicate_succ]

/-- R80 and R81 in Lean's own operations, over a whole seed. -/
theorem accumulate_eq (seed : List CodeUnit) :
    accumulate seed =
      seed.foldl (fun h c => ((h ^^^ c.setWidth 32) * 0xCC9E2D51#32).rotateLeft 13)
        (0x6A09E667#32 ^^^ BitVec.ofNat 32 seed.length) := by
  rw [← funext₂ hashAbsorb_eq]
  rfl

/-! ### Draws of the hash (R85, R86) -/

/-- The hash after `k` draws, each of them answered. -/
def drawn (k : Nat) (s : State) : State :=
  { s with
    h := hashDraw k s.h
    events := s.events ++ (List.range k).map fun j => .response ⟨.ok, hashDraw (j + 1) s.h⟩ }

theorem execAll_hdraw {s : State} (hv : s.hvalid = true) (hrem : s.hrem = 0#32) (k : Nat) :
    execAll (List.replicate k .hdraw) s = .next (drawn k s) := by
  induction k with
  | zero => simp [execAll, drawn, hashDraw]
  | succ k ih =>
    rw [List.replicate_succ', execAll_append_singleton ih (exec_hdraw_of_ready hv hrem)]
    simp [drawn, answered, hashDraw, List.range_succ]

/-- Settles O31: the state after the seed's commands, and the state after `k + 1` draws from it. -/
theorem seedCommandsComputeTheHash : Obligations.SeedCommandsComputeTheHash := by
  intro seed s hlen
  refine ⟨_, execAll_seedCommands hlen s, accumulate_eq seed, rfl, rfl, fun k => ?_⟩
  refine ⟨_, execAll_hdraw rfl rfl (k + 1), rfl, ?_⟩
  simp [drawn, List.range_succ]

/-! ### `PSEED` and its parts (R85, R104 to R107, R120) -/

theorem setValid_all (v : BitVec 4) :
    setValid 3 (setValid 2 (setValid 1 (setValid 0 v))) = 0b1111#4 := by
  revert v
  decide

/-- The generator after its four loads, each of them answered. -/
def loadedWith (p : Prng) (s : State) : State :=
  { setPrng p s with
    pvalid := 0b1111#4
    events := s.events ++ [okZero, okZero, okZero, okZero] }

theorem execAll_loads (p : Prng) (s : State) :
    execAll [.plda p.a, .pldb p.b, .pldc p.c, .pldd p.d] s = .next (loadedWith p s) := by
  rw [execAll_cons rfl, execAll_cons rfl, execAll_cons rfl, execAll_cons rfl, execAll]
  simp [loadedWith, setPrng, pushEvents, setValid_all, okZero]

/-- Settles O33: the other list is four draws and then the loads of `seedPrng`'s registers, which
are those draws. -/
theorem pseedEqualsItsParts : Obligations.PseedEqualsItsParts := by
  intro s hv hrem
  refine ⟨_, _, exec_pseed_of_ready hv hrem,
    (execAll_append (execAll_hdraw hv hrem 4) _).trans (execAll_loads (seedPrng s.h) _),
    rfl, rfl, rfl, rfl, rfl, rfl, hv, rfl, rfl, hrem, ?_⟩
  exact List.append_assoc ..

/-! ### The canonical program (R71, R123) -/

/-- The generator seeded by a seed's commands and `PSEED`, each of them answered. -/
def seeded (seed : List CodeUnit) (s : State) : State :=
  { handOver (seedPrng (accumulate seed)) s with
    events := s.events ++ List.replicate (seed.length + 2) okZero }

theorem execAll_seedCommands_pseed {seed : List CodeUnit} (hlen : seed.length < 2 ^ 32)
    (s : State) : execAll (seedCommands seed ++ [.pseed]) s = .next (seeded seed s) := by
  rw [execAll_append_singleton (execAll_seedCommands hlen s) (exec_pseed_of_ready rfl rfl)]
  simp [hashedSeed, seeded, handOver, pushEvents, okZero, List.replicate_succ']

/-- Settles O32: the seeded generator gives its bytes or, for a negative count, is kept. -/
theorem canonicalSequenceIsRandomBytes : Obligations.CanonicalSequenceIsRandomBytes := by
  intro seed n s hlen
  have hrun {t : State} (ht : exec (.gen n) (seeded seed s) = .next t) :
      execAll (seedCommands seed ++ [.pseed, .gen n]) s = .next t := by
    have happ := execAll_append_singleton (execAll_seedCommands_pseed hlen s) ht
    rwa [List.append_assoc] at happ
  cases hbit : n.getLsbD 31 with
  | false =>
    exact ⟨_, hrun (exec_gen_of_ready hbit rfl), rfl, rfl,
      fun _ => ⟨rfl, (List.append_assoc ..).symm⟩, (absurd · Bool.false_ne_true)⟩
  | true =>
    exact ⟨_, hrun (exec_gen_of_negative hbit _), rfl, rfl, (absurd ·.symm Bool.false_ne_true),
      fun _ => ⟨rfl, rfl, rfl⟩⟩

/-! ### Shorter and longer generations, and `PSTEP` (R108, R121) -/

theorem draws_take {n m : Nat} (h : n ≤ m) (p : Prng) : (draws m p).take n = draws n p := by
  induction n generalizing m p with
  | zero => rfl
  | succ n ih =>
    obtain ⟨m, rfl⟩ := Nat.exists_eq_succ_of_ne_zero (Nat.ne_zero_of_lt h)
    rw [draws, draws, List.take_succ_cons, ih (Nat.le_of_succ_le_succ h)]

/-- The generator after `k` steps, each draw answered. -/
def stepped (k : Nat) (s : State) : State :=
  { setPrng (stepMany k (prngOf s)) s with
    events := s.events ++ (draws k (prngOf s)).map fun d => .response ⟨.ok, d⟩ }

theorem execAll_pstep {s : State} (hp : s.pvalid = 0b1111#4) (k : Nat) :
    execAll (List.replicate k .pstep) s = .next (stepped k s) := by
  induction k generalizing s with
  | zero => simp [execAll, stepped, stepMany, draws, setPrng_prngOf]
  | succ k ih =>
    rw [List.replicate_succ, execAll_cons (exec_pstep_of_ready hp), ih]
    · simp [stepped, stepMany, draws, answered, prngOf, setPrng]
    · exact hp

/-- Settles O34: both the bytes of `GEN` and the answers of `PSTEP` are the draws in order. -/
theorem shorterGenerationsBeginLongerOnes : Obligations.ShorterGenerationsBeginLongerOnes := by
  refine ⟨fun n m p h => ?_, fun k s hp => ?_⟩
  · rw [genBytes, genBytes, ← List.map_take, draws_take h]
  · exact ⟨_, draws k (prngOf s), execAll_pstep hp k, rfl, rfl, hp⟩

end Sys2Proof.Machine
end
